-- ==== Sys2Proof/Word.lean ====
section
/-! DEFINITION. The widths of the AD57X1 command block (00_scope R10, R12): every value is an unsigned bit vector. -/

namespace Sys2Proof

/-- A `u8`: one byte of the serial bus (00_scope R15). -/
abbrev Byte := BitVec 8

/-- A `u20`: the payload of a frame (30_encoding R80). -/
abbrev Payload := BitVec 20

/-- A `u24`: a frame on the serial bus (30_encoding R80). -/
abbrev Frame := BitVec 24

/-- A `u32`: a host operand, a host value, the control register image. -/
abbrev Word := BitVec 32

/-- A `u36`: a host command word (30_encoding R90). -/
abbrev HostWord := BitVec 36

/-- A word of one of the two encodings of 30_encoding: the host's 36-bit command word, or a 24-bit wire frame. -/
inductive CommandWord where
  /-- A host command word (30_encoding R90). -/
  | host (cw : HostWord)
  /-- A wire frame (30_encoding R80). -/
  | wire (f : Frame)
deriving DecidableEq, Repr

end Sys2Proof
end

