-- ==== Sys2Proof/Syntax.lean ====
section
/-! DEFINITION. The instructions: one constructor for each of the 23 rows of spec/opcode_table.json. -/

namespace Sys2Proof

/-- An instruction of the table.

A host command carries its whole operand field `OPD` (30_encoding R90), so that no bit of the word is lost: a word whose
must-be-zero bits are not zero is a form of its command, ill-formed, and its meaning is `Fail(ILLEGAL_OPERAND)` (R91,
R92; log entry 10). A reserved word carries its ignored operand. A wire frame carries its free payload bits. -/
inductive Instr where
  /-- `BEGIN b`, opcode 0x0 (41_begin R130). -/
  | begin (opd : Word)
  /-- `SET_VALUE n`, opcode 0x1 (42_value R144). -/
  | setValue (opd : Word)
  /-- `READ_VALUE`, opcode 0x2 (42_value R145). -/
  | readValue (opd : Word)
  /-- `SET_CLEAR_CODE n`, opcode 0x3 (42_value R146). -/
  | setClearCode (opd : Word)
  /-- `SET_INTERNAL_AMPLIFIER b`, opcode 0x4 (43_control R151). -/
  | setInternalAmplifier (opd : Word)
  /-- `SET_OUTPUT_CLAMP b`, opcode 0x5 (43_control R152). -/
  | setOutputClamp (opd : Word)
  /-- `SET_TRISTATE_MODE b`, opcode 0x6 (43_control R153). -/
  | setTristateMode (opd : Word)
  /-- `SET_OFFSET_BINARY b`, opcode 0x7 (43_control R154). -/
  | setOffsetBinary (opd : Word)
  /-- `SET_REFERENCE_INPUT_RANGE b`, opcode 0x8 (43_control R155). -/
  | setReferenceInputRange (opd : Word)
  /-- `UPDATE_CONTROL_REGISTER`, opcode 0x9 (43_control R156). -/
  | updateControlRegister (opd : Word)
  /-- `ENABLE_OUTPUT`, opcode 0xA (43_control R157). -/
  | enableOutput (opd : Word)
  /-- `READ_CONTROL_REGISTER`, opcode 0xB (43_control R158). -/
  | readControlRegister (opd : Word)
  /-- `RESET`, opcode 0xC (43_control R159). -/
  | reset (opd : Word)
  /-- `RESERVED_0xD` (60_exceptions R192); its operand is ignored. -/
  | reservedD (opd : Word)
  /-- `RESERVED_0xE` (60_exceptions R192); its operand is ignored. -/
  | reservedE (opd : Word)
  /-- `RESERVED_0xF` (60_exceptions R192); its operand is ignored. -/
  | reservedF (opd : Word)
  /-- `FRAME_WR_DAC` (30_encoding R96): 0x1 followed by the payload, a scaled value (R85). -/
  | frameWrDac (payload : Payload)
  /-- `FRAME_WR_CTRL` (30_encoding R96): 0x2 followed by the payload, `IMG[19:0]` (R87). -/
  | frameWrCtrl (payload : Payload)
  /-- `FRAME_WR_CLR` (30_encoding R96): 0x3 followed by the payload, a scaled value (R86). -/
  | frameWrClr (payload : Payload)
  /-- `FRAME_WR_SWCTRL_LDAC` (30_encoding R96): 0x400001. -/
  | frameWrSwctrlLdac
  /-- `FRAME_RD_DAC` (30_encoding R96): 0x900000. -/
  | frameRdDac
  /-- `FRAME_RD_CTRL` (30_encoding R96): 0xA00000. -/
  | frameRdCtrl
  /-- `FRAME_NOP` (30_encoding R96): 0x000000. -/
  | frameNop
deriving DecidableEq, Repr

/-- One of the thirteen host commands of 30_encoding R90. -/
def Instr.isHostCommand : Instr → Bool
  | .begin _ | .setValue _ | .readValue _ | .setClearCode _ | .setInternalAmplifier _ | .setOutputClamp _
  | .setTristateMode _ | .setOffsetBinary _ | .setReferenceInputRange _ | .updateControlRegister _
  | .enableOutput _ | .readControlRegister _ | .reset _ => true
  | .reservedD _ | .reservedE _ | .reservedF _ => false
  | .frameWrDac _ | .frameWrCtrl _ | .frameWrClr _ | .frameWrSwctrlLdac | .frameRdDac | .frameRdCtrl
  | .frameNop => false

/-- One of the three reserved opcodes of 30_encoding R93. -/
def Instr.isReserved : Instr → Bool
  | .reservedD _ | .reservedE _ | .reservedF _ => true
  | .begin _ | .setValue _ | .readValue _ | .setClearCode _ | .setInternalAmplifier _ | .setOutputClamp _
  | .setTristateMode _ | .setOffsetBinary _ | .setReferenceInputRange _ | .updateControlRegister _
  | .enableOutput _ | .readControlRegister _ | .reset _ => false
  | .frameWrDac _ | .frameWrCtrl _ | .frameWrClr _ | .frameWrSwctrlLdac | .frameRdDac | .frameRdCtrl
  | .frameNop => false

/-- One of the seven wire frames of 30_encoding R96. -/
def Instr.isFrame : Instr → Bool
  | .frameWrDac _ | .frameWrCtrl _ | .frameWrClr _ | .frameWrSwctrlLdac | .frameRdDac | .frameRdCtrl
  | .frameNop => true
  | .begin _ | .setValue _ | .readValue _ | .setClearCode _ | .setInternalAmplifier _ | .setOutputClamp _
  | .setTristateMode _ | .setOffsetBinary _ | .setReferenceInputRange _ | .updateControlRegister _
  | .enableOutput _ | .readControlRegister _ | .reset _ | .reservedD _ | .reservedE _ | .reservedF _ => false

end Sys2Proof
end

