-- ==== Sys2Proof/WellFormed.lean ====
section
/-! DEFINITION. Which instructions are well-formed: the must-be-zero bits of 30_encoding R91 are zero. -/

namespace Sys2Proof

/-- Class NONE (30_encoding R91): `OPD` must be zero. -/
abbrev noneOperandOk (opd : Word) : Bool := opd == 0#32

/-- Class BOOL (30_encoding R91): bits 31:1 of `OPD` must be zero, so it is 0 (false) or 1 (true). -/
abbrev boolOperandOk (opd : Word) : Bool := opd == 0#32 || opd == 1#32

/-- The check of 30_encoding R91. A VALUE operand is not checked (R82); a reserved word's operand is ignored (spec/opcode_table.json);
every payload of a wire frame's row is one of its words. -/
def Instr.wellFormed : Instr → Bool
  | .begin opd => boolOperandOk opd
  | .setValue _ => true
  | .readValue opd => noneOperandOk opd
  | .setClearCode _ => true
  | .setInternalAmplifier opd => boolOperandOk opd
  | .setOutputClamp opd => boolOperandOk opd
  | .setTristateMode opd => boolOperandOk opd
  | .setOffsetBinary opd => boolOperandOk opd
  | .setReferenceInputRange opd => boolOperandOk opd
  | .updateControlRegister opd => noneOperandOk opd
  | .enableOutput opd => noneOperandOk opd
  | .readControlRegister opd => noneOperandOk opd
  | .reset opd => noneOperandOk opd
  | .reservedD _ => true
  | .reservedE _ => true
  | .reservedF _ => true
  | .frameWrDac _ => true
  | .frameWrCtrl _ => true
  | .frameWrClr _ => true
  | .frameWrSwctrlLdac => true
  | .frameRdDac => true
  | .frameRdCtrl => true
  | .frameNop => true

/-- The BOOL operand that stands for a boolean (30_encoding R91: 1 = true). -/
abbrev boolOperand (b : Bool) : Word := if b then 1#32 else 0#32

end Sys2Proof
end

