-- ==== Sys2Proof/Decode.lean ====
section
/-! DEFINITION. The two decoders, the encoder and the opcode table as rows: 30_encoding R80, R90 to R96. -/

namespace Sys2Proof

/-- Why a word is no instruction. -/
inductive DecodeError where
  /-- A 24-bit word that is none of the frames of 30_encoding R96: the block never emits it, and the spec gives no
  behaviour for it (93_implementation_defined U12). -/
  | frameNeverEmitted
deriving DecidableEq, Repr

/-- `OPC = CW[35:32]` (30_encoding R90). -/
def hostOpcode (cw : HostWord) : BitVec 4 := cw.extractLsb' 32 4

/-- `OPD = CW[31:0]` (30_encoding R90). -/
def hostOperand (cw : HostWord) : Word := cw.extractLsb' 0 32

/-- The instruction of an opcode and an operand (the table of 30_encoding R90; opcodes 0xD to 0xF are R93's reserved ones). -/
def hostInstr (opc : BitVec 4) (opd : Word) : Instr :=
  if opc = 0x0#4 then .begin opd
  else if opc = 0x1#4 then .setValue opd
  else if opc = 0x2#4 then .readValue opd
  else if opc = 0x3#4 then .setClearCode opd
  else if opc = 0x4#4 then .setInternalAmplifier opd
  else if opc = 0x5#4 then .setOutputClamp opd
  else if opc = 0x6#4 then .setTristateMode opd
  else if opc = 0x7#4 then .setOffsetBinary opd
  else if opc = 0x8#4 then .setReferenceInputRange opd
  else if opc = 0x9#4 then .updateControlRegister opd
  else if opc = 0xA#4 then .enableOutput opd
  else if opc = 0xB#4 then .readControlRegister opd
  else if opc = 0xC#4 then .reset opd
  else if opc = 0xD#4 then .reservedD opd
  else if opc = 0xE#4 then .reservedE opd
  else .reservedF opd

/-- The host decoder. It is total: every 36-bit word is an instruction (30_encoding R92). A reserved opcode is R92's
outcome `ILLEGAL_OPCODE`, an ill-formed command its outcome `ILLEGAL_OPERAND`; their meanings raise those causes. -/
def decodeHost (cw : HostWord) : Instr := hostInstr (hostOpcode cw) (hostOperand cw)

/-- `F[23:20]`: the direction bit and the address (30_encoding R80). -/
def frameHead (f : Frame) : BitVec 4 := f.extractLsb' 20 4

/-- `F[19:0]`: the payload (30_encoding R80). -/
def framePayload (f : Frame) : Payload := f.extractLsb' 0 20

/-- The wire decoder: the frames of the table of 30_encoding R96, any other word rejected by name. -/
def decodeWire (f : Frame) : Except DecodeError Instr :=
  if frameHead f = 0x1#4 then .ok (.frameWrDac (framePayload f))
  else if frameHead f = 0x2#4 then .ok (.frameWrCtrl (framePayload f))
  else if frameHead f = 0x3#4 then .ok (.frameWrClr (framePayload f))
  else if f = 0x400001#24 then .ok .frameWrSwctrlLdac
  else if f = 0x900000#24 then .ok .frameRdDac
  else if f = 0xA00000#24 then .ok .frameRdCtrl
  else if f = 0x000000#24 then .ok .frameNop
  else .error .frameNeverEmitted

/-- The decoder of both encodings. -/
def decode : CommandWord → Except DecodeError Instr
  | .host cw => .ok (decodeHost cw)
  | .wire f => decodeWire f

/-- `CW = (OPC << 32) | OPD` (30_encoding R90, R100). -/
def hostWord (opc : BitVec 4) (opd : Word) : CommandWord := .host (opc ++ opd)

/-- The encoder, from the tables of 30_encoding R90, R93 and R96. -/
def encode : Instr → CommandWord
  | .begin opd => hostWord 0x0#4 opd
  | .setValue opd => hostWord 0x1#4 opd
  | .readValue opd => hostWord 0x2#4 opd
  | .setClearCode opd => hostWord 0x3#4 opd
  | .setInternalAmplifier opd => hostWord 0x4#4 opd
  | .setOutputClamp opd => hostWord 0x5#4 opd
  | .setTristateMode opd => hostWord 0x6#4 opd
  | .setOffsetBinary opd => hostWord 0x7#4 opd
  | .setReferenceInputRange opd => hostWord 0x8#4 opd
  | .updateControlRegister opd => hostWord 0x9#4 opd
  | .enableOutput opd => hostWord 0xA#4 opd
  | .readControlRegister opd => hostWord 0xB#4 opd
  | .reset opd => hostWord 0xC#4 opd
  | .reservedD opd => hostWord 0xD#4 opd
  | .reservedE opd => hostWord 0xE#4 opd
  | .reservedF opd => hostWord 0xF#4 opd
  | .frameWrDac p => .wire (0x1#4 ++ p)
  | .frameWrCtrl p => .wire (0x2#4 ++ p)
  | .frameWrClr p => .wire (0x3#4 ++ p)
  | .frameWrSwctrlLdac => .wire 0x400001#24
  | .frameRdDac => .wire 0x900000#24
  | .frameRdCtrl => .wire 0xA00000#24
  | .frameNop => .wire 0x000000#24

/-- A row of spec/opcode_table.json: how wide its words are, which bits it fixes and to what. -/
structure TableRow where
  width : Nat
  mask : Nat
  value : Nat
deriving DecidableEq, Repr

/-- The row of spec/opcode_table.json that an instruction stands for. -/
def tableRow : Instr → TableRow
  | .begin _ => ⟨36, 0xFFFFFFFFE, 0x000000000⟩
  | .setValue _ => ⟨36, 0xF00000000, 0x100000000⟩
  | .readValue _ => ⟨36, 0xFFFFFFFFF, 0x200000000⟩
  | .setClearCode _ => ⟨36, 0xF00000000, 0x300000000⟩
  | .setInternalAmplifier _ => ⟨36, 0xFFFFFFFFE, 0x400000000⟩
  | .setOutputClamp _ => ⟨36, 0xFFFFFFFFE, 0x500000000⟩
  | .setTristateMode _ => ⟨36, 0xFFFFFFFFE, 0x600000000⟩
  | .setOffsetBinary _ => ⟨36, 0xFFFFFFFFE, 0x700000000⟩
  | .setReferenceInputRange _ => ⟨36, 0xFFFFFFFFE, 0x800000000⟩
  | .updateControlRegister _ => ⟨36, 0xFFFFFFFFF, 0x900000000⟩
  | .enableOutput _ => ⟨36, 0xFFFFFFFFF, 0xA00000000⟩
  | .readControlRegister _ => ⟨36, 0xFFFFFFFFF, 0xB00000000⟩
  | .reset _ => ⟨36, 0xFFFFFFFFF, 0xC00000000⟩
  | .reservedD _ => ⟨36, 0xF00000000, 0xD00000000⟩
  | .reservedE _ => ⟨36, 0xF00000000, 0xE00000000⟩
  | .reservedF _ => ⟨36, 0xF00000000, 0xF00000000⟩
  | .frameWrDac _ => ⟨24, 0xF00000, 0x100000⟩
  | .frameWrCtrl _ => ⟨24, 0xF00000, 0x200000⟩
  | .frameWrClr _ => ⟨24, 0xF00000, 0x300000⟩
  | .frameWrSwctrlLdac => ⟨24, 0xFFFFFF, 0x400001⟩
  | .frameRdDac => ⟨24, 0xFFFFFF, 0x900000⟩
  | .frameRdCtrl => ⟨24, 0xFFFFFF, 0xA00000⟩
  | .frameNop => ⟨24, 0xFFFFFF, 0x000000⟩

/-- A word is one of a row's words: it has the row's width and the row's fixed bits. -/
def TableRow.covers (r : TableRow) : CommandWord → Bool
  | .host cw => r.width == 36 && (cw &&& BitVec.ofNat 36 r.mask) == BitVec.ofNat 36 r.value
  | .wire f => r.width == 24 && (f &&& BitVec.ofNat 24 r.mask) == BitVec.ofNat 24 r.value

/-- The word that spec/opcode_table.json's bits `w` of an `nbits`-bit row are, for both encodings: rows of at most 24 bits are wire
frames, the others host words (log entry 15). -/
def tableWord (nbits w : Nat) : CommandWord :=
  if nbits ≤ 24 then .wire (BitVec.ofNat 24 w) else .host (BitVec.ofNat 36 w)

/-- The instruction the decoder reads from a word of the opcode table. Bits above the word's width make it no word of
either encoding (30_encoding R95: the widths are fixed). -/
def decodeTableWord (nbits w : Nat) : Option Instr :=
  if w < 2 ^ (if nbits ≤ 24 then 24 else 36) then
    match decode (tableWord nbits w) with
    | .ok i => some i
    | .error _ => none
  else none

end Sys2Proof
end

