-- ==== Sys2Proof/Config.lean ====
section
/-! DEFINITION. What construction fixes for the block's lifetime (00_scope R10, 10_state R20 to R27), the names of the
two collaborators, and the one free value of the model: the transport's answers. -/

namespace Sys2Proof

/-- `PinId`, opaque in the spec: the block only compares pins for equality and passes them on (10_state R21).
DESIGN CHOICE, log entry 9: a pin is named by a number. -/
structure PinId where
  id : Nat
deriving DecidableEq, Repr

/-- `BusHandle`, opaque in the spec (10_state R26). DESIGN CHOICE, log entry 9: named by a number. -/
structure BusHandle where
  id : Nat
deriving DecidableEq, Repr

/-- `TransportError`, an opaque type of the transport, stored unchanged (10_state R40, decision D28).
DESIGN CHOICE, log entry 9: named by a number. -/
structure TransportError where
  code : Nat
deriving DecidableEq, Repr

/-- The level of a pin (10_state R22). -/
inductive Level where
  | low
  | high
deriving DecidableEq, Repr

/-- The bit order a transaction is opened with; the block only ever asks for MSB first (20_memory R53, R58). -/
inductive BitOrder where
  | msbFirst
  | lsbFirst
deriving DecidableEq, Repr

/-- `ENABLE_OUTPUT_STYLE` has one value (00_scope R10, decision D21). -/
inductive EnableOutputStyle where
  | twoChip
deriving DecidableEq, Repr

/-- What the transport answers to a call that may fail (00_scope R15): it succeeds, and an `Xfer` then returns a byte,
or it answers `Err(e)`. The byte of a success is looked at for `Xfer` only (log entry 3). -/
inductive BusReply where
  | ok (i : Byte)
  | err (e : TransportError)
deriving DecidableEq, Repr, Inhabited

/-- The construction record `CFG` (00_scope R10). -/
structure Cfg where
  /-- `CFG.CS_PIN` (10_state R21). -/
  csPin : PinId
  /-- `CFG.CS_ACTIVE` (10_state R22). -/
  csActive : Level
  /-- `CFG.LDAC_PIN` (10_state R23); `none` is the sentinel. -/
  ldacPin : Option PinId
  /-- `CFG.CLK_HZ` (10_state R25). -/
  clkHz : Nat
  /-- `CFG.OFFSET` (10_state R24): 0 or 2 in a configuration that construction accepts (00_scope R11). -/
  offset : Nat
  /-- `CFG.BUS` (10_state R26). -/
  bus : BusHandle
  /-- `ENABLE_OUTPUT_STYLE` (00_scope R10). -/
  enableOutputStyle : EnableOutputStyle
deriving DecidableEq, Repr

namespace Config

/-- FREE VALUE. The transport's answer to the `n`-th fallible call, where the state's list of coming answers has run
out: any byte and any error may come (93_implementation_defined U3, U4, U5, U14). It has no body, so nothing can be
proved of its values. Log entry 3. -/
opaque transportAnswer : Nat → BusReply

/-- The configuration of `State.reset`. `CS_ACTIVE`, `LDAC_PIN` and `CLK_HZ` have the defaults of 00_scope R10.
DESIGN CHOICE, log entry 8: `CS_PIN`, `OFFSET` and `BUS` have no default in the spec; here pin 0, offset 2, handle 0. -/
def resetCfg : Cfg where
  csPin := ⟨0⟩
  csActive := .low
  ldacPin := none
  clkHz := 1000000
  offset := 2
  bus := ⟨0⟩
  enableOutputStyle := .twoChip

end Config

end Sys2Proof
end

