-- ==== Sys2Proof/Machine/Codec.lean ====
section
/-! DEFINITION. The command codec: the register addresses (30_encoding R83) and the pure functions of 40_codec R110 to
R114. None of them reads the state (R118). -/

namespace Sys2Proof.Machine

/-- The direction of a frame (30_encoding R81). -/
inductive Dir where
  | write
  | read
deriving DecidableEq, Repr

/-- Bit 23 of a frame (30_encoding R81). -/
def dirBit : Dir → BitVec 1
  | .write => 0#1
  | .read => 1#1

/-- The registers the block addresses (20_memory R50). -/
inductive Reg where
  | nop
  | dac
  | ctrl
  | clr
  | swctrl
deriving DecidableEq, Repr

/-- The register addresses, one constant table (30_encoding R83; from general knowledge, log entry 12). -/
def regAddr : Reg → BitVec 3
  | .nop => 0b000#3
  | .dac => 0b001#3
  | .ctrl => 0b010#3
  | .clr => 0b011#3
  | .swctrl => 0b100#3

/-- `encodeFrame` (40_codec R110): direction, address, and the payload masked to 20 bits. -/
def encodeFrame (dir : Dir) (addr : BitVec 3) (payload : Word) : Frame :=
  (dirBit dir).setWidth 24 <<< 23 ||| addr.setWidth 24 <<< 20 ||| (payload &&& 0xFFFFF#32).setWidth 24

/-- `serialize` (40_codec R111): the bytes of a frame, the most significant first. -/
def serialize (f : Frame) : List Byte :=
  [f.extractLsb' 16 8, f.extractLsb' 8 8, f.extractLsb' 0 8]

/-- `decodeReadback` (40_codec R112): `data = R[19:0]` and `echo = R[23:20]`, unchecked. -/
def decodeReadback (r : Frame) : Payload × BitVec 4 :=
  (r.extractLsb' 0 20, r.extractLsb' 20 4)

/-- `scaleValue` (40_codec R113): a 32-bit shift by the offset, then the 20-bit mask. -/
def scaleValue (offset : Nat) (v : Word) : Payload :=
  ((v <<< offset) &&& 0xFFFFF#32).setWidth 20

/-- `descaleValue` (40_codec R114). -/
def descaleValue (offset : Nat) (data : Payload) : Word :=
  (data >>> offset).setWidth 32

/-- `VALUE_BITS` (10_state R27). -/
def valueBits (offset : Nat) : Nat := 20 - offset

/-- `VALUE_MASK` (10_state R27). -/
def valueMask (offset : Nat) : Word := 0xFFFFF#32 >>> offset

/-- The payload of the software commit: the load-DAC bit alone (30_encoding R88; from general knowledge, log entry
12). -/
def loadDacPayload : Word := 0x00001#32

end Sys2Proof.Machine
end

