-- ==== Sys2Proof/Machine/Fields.lean ====
section
/-! DEFINITION. The control-register bit-field manager's field table and field write: 10_state R30, R32, 43_control R150. -/

namespace Sys2Proof.Machine

/-- The fields of the control register image (10_state R30). -/
inductive Field where
  /-- internal-amplifier-disable -/
  | rbuf
  /-- output-clamp-to-ground -/
  | opgnd
  /-- tristate-output -/
  | dactri
  /-- offset-binary-encoding -/
  | bin2sc
  /-- SDO-disable -/
  | sdodis
  /-- linearity-compensation code -/
  | lincomp
deriving DecidableEq, Repr

/-- `POS_f` (10_state R32; from general knowledge, log entry 12). -/
def fieldPos : Field → Nat
  | .rbuf => 1
  | .opgnd => 2
  | .dactri => 3
  | .bin2sc => 4
  | .sdodis => 5
  | .lincomp => 6

/-- `MASK_f` (10_state R32; from general knowledge, log entry 12). -/
def fieldMask : Field → Word
  | .rbuf => 0x002#32
  | .opgnd => 0x004#32
  | .dactri => 0x008#32
  | .bin2sc => 0x010#32
  | .sdodis => 0x020#32
  | .lincomp => 0x3C0#32

/-- The width of a field (10_state R30). -/
def fieldWidth : Field → Nat
  | .rbuf => 1
  | .opgnd => 1
  | .dactri => 1
  | .bin2sc => 1
  | .sdodis => 1
  | .lincomp => 4

/-- `IMG.f` (10_state R30), in the four bits of the widest field. -/
def fieldRead (f : Field) (img : Word) : BitVec 4 :=
  ((img &&& fieldMask f) >>> fieldPos f).setWidth 4

/-- `FieldWrite(f, val)` on an image (43_control R150): the read-modify-write of one field. -/
def fieldWrite (f : Field) (val : BitVec 4) (img : Word) : Word :=
  (img &&& ~~~ fieldMask f) ||| ((val.setWidth 32 <<< fieldPos f) &&& fieldMask f)

/-- A boolean as the value of a one-bit field. -/
def fieldBit (b : Bool) : BitVec 4 := if b then 0b0001#4 else 0b0000#4

/-- The linearity code of `enableCompensation` (43_control R155): 20 V range or 10 V range. -/
def rangeCode (enableCompensation : Bool) : BitVec 4 :=
  if enableCompensation then 0b1100#4 else 0b0000#4

end Sys2Proof.Machine
end

