-- ==== Sys2Proof/Machine/State.lean ====
section
/-! DEFINITION. The block's state, the events it emits, the responses it returns, and reset: 10_state, 00_scope R15,
60_exceptions R191 and R196, 70_reset_and_hazards R210. -/

namespace Sys2Proof.Machine

/-- `MODE` (10_state R28): the two device states. -/
inductive Mode where
  | unconfigured
  | ready
deriving DecidableEq, Repr

/-- The cause codes of 60_exceptions R191 (`causeCode` gives the number). Codes 0x5 to 0xF are reserved and never
produced, so they have no constructor (log entry 14). -/
inductive Cause where
  /-- `NONE`, 0x0: the command completed. -/
  | none
  /-- `ILLEGAL_OPCODE`, 0x1. -/
  | illegalOpcode
  /-- `ILLEGAL_OPERAND`, 0x2. -/
  | illegalOperand
  /-- `NOT_READY`, 0x3. -/
  | notReady
  /-- `TRANSPORT`, 0x4. -/
  | transport
deriving DecidableEq, Repr

/-- How a call that answers no byte ended: `BusInit` and `TxnBegin` succeed or answer `Err(e)` (00_scope R15). -/
inductive Ack where
  | ok
  | err (e : TransportError)
deriving DecidableEq, Repr

/-- An interface event (00_scope R15). A transport event names the bus handle it goes to (10_state R26) and what the
transport answered (log entry 13). -/
inductive Event where
  /-- `PinMode(p)`: configure the pin as an output. -/
  | pinMode (p : PinId)
  /-- `PinWrite(p, lvl)`. -/
  | pinWrite (p : PinId) (lvl : Level)
  /-- `BusInit`, and its answer. -/
  | busInit (bus : BusHandle) (a : Ack)
  /-- `TxnBegin(clk, order, cpol, cpha)`, and its answer. -/
  | txnBegin (bus : BusHandle) (clk : Nat) (order : BitOrder) (cpol cpha : BitVec 1) (a : Ack)
  /-- `Xfer(o) -> i`, or `Xfer(o) -> Err(e)`. -/
  | xfer (bus : BusHandle) (o : Byte) (r : BusReply)
  /-- `TxnEnd`. -/
  | txnEnd (bus : BusHandle)
deriving DecidableEq, Repr

/-- The response of a command (60_exceptions R196): the cause, the result `(value, echo)` of a completed read, and
`STATUS` after the command. -/
structure Response where
  cause : Cause
  result : Option (Word × BitVec 4)
  status : BitVec 4
deriving DecidableEq, Repr

/-- The state: what 10_state gives the block, then the model's own interface fields. -/
structure State where
  /-- `CFG` (10_state R20): written by construction only. -/
  cfg : Cfg
  /-- `MODE` (10_state R28). -/
  mode : Mode
  /-- `IMG` (10_state R29, R30). -/
  img : Word
  /-- `STATUS` (10_state R38): bit 0 illegal opcode, bit 1 illegal operand, bit 2 not ready, bit 3 transport. -/
  status : BitVec 4
  /-- `LAST_CAUSE` (10_state R39). -/
  lastCause : Cause
  /-- `TERR` (10_state R40). -/
  terr : Option TransportError
  /-- `TRACE` (10_state R41): every event since construction, the oldest first. -/
  trace : List Event
  /-- The model's own: the words the host has still to present, the next one first (log entry 1). -/
  requests : List CommandWord
  /-- The model's own: the transport's coming answers, the next one first (log entry 3). -/
  answers : List BusReply
  /-- The model's own: how many fallible transport calls were made; the index of the free value
  `Config.transportAnswer` (log entry 3). -/
  draws : Nat
  /-- The model's own: the responses returned to the host, the oldest first (log entry 4). -/
  responses : List Response
deriving DecidableEq, Repr

/-- Why the machine stops with a fault. There is no such reason: every failure the spec describes ends a command with
a response and the block goes on (60_exceptions R200), so nothing raises a fault. -/
inductive Fault where
deriving DecidableEq, Repr

/-- Why a step has no meaning. -/
inductive Refusal where
  /-- Raised by an arm of `exec` for an instruction without a meaning; no arm does. Safe. -/
  | notModelled (mnemonic : String)
  /-- Raised for a frame that the block never emits (30_encoding R96, 93_implementation_defined U12; log entry 7): by
  `step` for a 24-bit word that is no row of the table, and by the meanings of Machine/Wire.lean for a payload, or a
  commit frame, that no command sends in this state. Safe. -/
  | frameNeverEmitted
deriving DecidableEq, Repr

/-- The block right after construction from a configuration (70_reset_and_hazards R210): the configuration, the reset
value of every other element, and no input or output yet. -/
def State.initial (c : Cfg) : State where
  cfg := c
  mode := .unconfigured
  img := 0x0000001E#32
  status := 0b0000#4
  lastCause := .none
  terr := none
  trace := []
  requests := []
  answers := []
  draws := 0
  responses := []

/-- The machine right after reset. Reset is construction (70_reset_and_hazards R210); the arguments are those of
`Config.resetCfg` (DESIGN CHOICE, log entry 8). -/
def State.reset : State := State.initial Config.resetCfg

end Sys2Proof.Machine
end

