-- ==== Sys2Proof/Machine/Flags.lean ====
section
/-! DEFINITION. The cause codes and the sticky flags: 60_exceptions R191, 10_state R38, R39. -/

namespace Sys2Proof.Machine

/-- The code of a cause (60_exceptions R191); `LAST_CAUSE : u4` is this number. -/
def causeCode : Cause → BitVec 4
  | .none => 0x0#4
  | .illegalOpcode => 0x1#4
  | .illegalOperand => 0x2#4
  | .notReady => 0x3#4
  | .transport => 0x4#4

/-- `flag(c)` (60_exceptions R191): the `STATUS` bit of a cause; `NONE` has none. -/
def causeFlag : Cause → BitVec 4
  | .none => 0b0000#4
  | .illegalOpcode => 0b0001#4
  | .illegalOperand => 0b0010#4
  | .notReady => 0b0100#4
  | .transport => 0b1000#4

/-- `STATUS | flag(c)` (60_exceptions R190): a flag is set, none is cleared. -/
def raiseFlag (c : Cause) (status : BitVec 4) : BitVec 4 := status ||| causeFlag c

end Sys2Proof.Machine
end

