-- ==== Sys2Proof/Machine/Operands.lean ====
section
/-! DEFINITION. The operand classes of the host commands: 30_encoding R91, R94. -/

namespace Sys2Proof.Machine

/-- The three operand classes (30_encoding R91). -/
inductive OperandClass where
  /-- No argument: `OPD` must be zero. -/
  | none
  /-- `OPD[0]` is the boolean; `OPD[31:1]` must be zero. -/
  | bool
  /-- All of `OPD` is the value; nothing is checked. -/
  | value
deriving DecidableEq, Repr

/-- The must-be-zero check of a class (30_encoding R91, R92). -/
def operandLegal : OperandClass → Word → Bool
  | .none, opd => opd == 0#32
  | .bool, opd => opd.extractLsb' 1 31 == 0#31
  | .value, _ => true

/-- The boolean of a BOOL operand, `OPD[0]` (30_encoding R91). -/
def operandBool (opd : Word) : Bool := opd.getLsbD 0

/-- The value of a VALUE operand: all 32 bits, unsigned (30_encoding R94). -/
def operandValue (opd : Word) : Word := opd

end Sys2Proof.Machine
end

