-- ==== Sys2Proof/Machine/Ops.lean ====
section
/-! DEFINITION. The operations every meaning is made of: construction, events and transport calls, TxFrame, WriteReg
and ReadReg (40_codec R115 to R117), the commit (42_value R140 to R142), and the dispatcher with its failed and
completed ends (60_exceptions R190). -/

namespace Sys2Proof.Machine

/-- Construction accepts a configuration (00_scope R11). -/
def cfgAccepted (c : Cfg) : Bool :=
  (c.offset == 0 || c.offset == 2) && c.clkHz != 0 && c.ldacPin != some c.csPin

/-- Construction (00_scope R11, 70_reset_and_hazards R210): a refused configuration builds no block. -/
def construct (c : Cfg) : Option State :=
  if cfgAccepted c then some (State.initial c) else none

/-- `CS_ASSERT` (10_state R22). -/
def csAssert (c : Cfg) : Level := c.csActive

/-- `CS_DEASSERT` (10_state R22). -/
def csDeassert (c : Cfg) : Level :=
  match c.csActive with
  | .low => .high
  | .high => .low

/-- The outcome of a procedure of the block: it returns a value, or a transport call raised `TRANSPORT(e)`
(60_exceptions R194); either way with the state it leaves. -/
inductive Result (α : Type) where
  | ok (a : α) (s : State)
  | raise (e : TransportError) (s : State)

/-- `emit E`: append an event to `TRACE` (00_scope R16). -/
def emit (e : Event) (s : State) : State := { s with trace := s.trace ++ [e] }

/-- The transport's next answer: the head of the coming answers, or the free value where none is listed (00_scope R15;
log entry 3). -/
def draw (s : State) : BusReply × State :=
  match s.answers with
  | r :: rest => (r, { s with answers := rest, draws := s.draws + 1 })
  | [] => (Config.transportAnswer s.draws, { s with draws := s.draws + 1 })

/-- `PinMode(p)` (60_exceptions R203). -/
def pinMode (p : PinId) (s : State) : State := emit (.pinMode p) s

/-- `PinWrite(p, lvl)` (60_exceptions R203). -/
def pinWrite (p : PinId) (lvl : Level) (s : State) : State := emit (.pinWrite p lvl) s

/-- `BusInit` (60_exceptions R203). -/
def busInit (s : State) : Result Unit :=
  match draw s with
  | (.ok _, s') => .ok () (emit (.busInit s.cfg.bus .ok) s')
  | (.err e, s') => .raise e (emit (.busInit s.cfg.bus (.err e)) s')

/-- `TxnBegin(CFG.CLK_HZ, MSB_FIRST, cpol=0, cpha=1)` (20_memory R58). -/
def txnBegin (s : State) : Result Unit :=
  match draw s with
  | (.ok _, s') => .ok () (emit (.txnBegin s.cfg.bus s.cfg.clkHz .msbFirst 0#1 1#1 .ok) s')
  | (.err e, s') => .raise e (emit (.txnBegin s.cfg.bus s.cfg.clkHz .msbFirst 0#1 1#1 (.err e)) s')

/-- `Xfer(o) -> i` (60_exceptions R203). -/
def xfer (o : Byte) (s : State) : Result Byte :=
  match draw s with
  | (.ok i, s') => .ok i (emit (.xfer s.cfg.bus o (.ok i)) s')
  | (.err e, s') => .raise e (emit (.xfer s.cfg.bus o (.err e)) s')

/-- The end of a frame, completed or aborted: chip-select deassert, then `TxnEnd` (40_codec R115, 60_exceptions R194 (b)). -/
def releaseBus (s : State) : State :=
  emit (.txnEnd s.cfg.bus) (pinWrite s.cfg.csPin (csDeassert s.cfg) s)

/-- The loop of `TxFrame` (40_codec R115): exchange the bytes in turn, collecting `R`; a failing call releases the bus. -/
def xferBytes : List Byte → Frame → State → Result Frame
  | [], r, s => .ok r s
  | b :: bs, r, s =>
    match xfer b s with
    | .raise e s' => .raise e (releaseBus s')
    | .ok i s' => xferBytes bs ((r <<< 8) ||| i.setWidth 24) s'

/-- `TxFrame(F)` (40_codec R115): one frame on the bus; returns the 24 bits received. -/
def txFrame (f : Frame) (s : State) : Result Frame :=
  match txnBegin s with
  | .raise e s' => .raise e s'
  | .ok _ s' =>
    match xferBytes (serialize f) 0#24 (pinWrite s.cfg.csPin (csAssert s.cfg) s') with
    | .raise e s'' => .raise e s''
    | .ok r s'' => .ok r (releaseBus s'')

/-- `WriteReg(addr, payload)` (40_codec R116): the received bytes are discarded. -/
def writeReg (a : Reg) (payload : Word) (s : State) : Result Unit :=
  match txFrame (encodeFrame .write (regAddr a) payload) s with
  | .raise e s' => .raise e s'
  | .ok _ s' => .ok () s'

/-- `ReadReg(addr)` (40_codec R117): the read-command frame, then the zero frame, whose received bits are decoded. -/
def readReg (a : Reg) (s : State) : Result (Payload × BitVec 4) :=
  match txFrame (encodeFrame .read (regAddr a) 0#32) s with
  | .raise e s' => .raise e s'
  | .ok _ s' =>
    match txFrame 0x000000#24 s' with
    | .raise e s'' => .raise e s''
    | .ok r s'' => .ok (decodeReadback r) s''

/-- `PinPulse(p)` (42_value R141): high, then low. -/
def pinPulse (p : PinId) (s : State) : State := pinWrite p .low (pinWrite p .high s)

/-- `SoftLoad()` (42_value R142). -/
def softLoad (s : State) : Result Unit := writeReg .swctrl loadDacPayload s

/-- `Commit()` (42_value R140): the path is chosen by `CFG.LDAC_PIN`. -/
def commit (s : State) : Result Unit :=
  match s.cfg.ldacPin with
  | some p => .ok () (pinPulse p s)
  | none => softLoad s

/-- `FieldWrite(f, val)` on the state's image (43_control R150). -/
def writeField (f : Field) (val : BitVec 4) (s : State) : State := { s with img := fieldWrite f val s.img }

/-- `Fail(c)` (60_exceptions R190): the sticky flag, the last cause, and a response without a result. This is the
block's one way of taking an exception: nothing is saved and the mode stays (R200). -/
def fail (c : Cause) (s : State) : State :=
  { s with
    status := raiseFlag c s.status
    lastCause := c
    responses := s.responses ++ [⟨c, none, raiseFlag c s.status⟩] }

/-- A raised `TRANSPORT(e)` at the dispatcher (60_exceptions R190, R194 (c), (d)): `TERR`, then `Fail(TRANSPORT)`. -/
def failTransport (e : TransportError) (s : State) : State := fail .transport { s with terr := some e }

/-- A completed command (60_exceptions R190): `LAST_CAUSE` is `NONE`, and the response carries the result. -/
def complete (res : Option (Word × BitVec 4)) (s : State) : State :=
  { s with
    lastCause := .none
    responses := s.responses ++ [⟨.none, res, s.status⟩] }

/-- In which modes a command's body may run (60_exceptions R202). -/
inductive ModeRule where
  /-- `BEGIN`: in either mode. -/
  | anyMode
  /-- Every other command: in `READY` only. -/
  | readyOnly
deriving DecidableEq, Repr

/-- The mode check of the dispatcher (60_exceptions R190). -/
def modeAllows : ModeRule → Mode → Bool
  | .anyMode, _ => true
  | .readyOnly, .ready => true
  | .readyOnly, .unconfigured => false

/-- What a command's body is: it returns the command's result, if any, or raises. -/
abbrev Body := State → Result (Option (Word × BitVec 4))

/-- A procedure that returns nothing, as the body of a command without a result. -/
def noResult : Result Unit → Result (Option (Word × BitVec 4))
  | .ok _ s => .ok none s
  | .raise e s => .raise e s

/-- The dispatcher's end of a body (60_exceptions R190): completed, or failed on the transport. -/
def finish : Result (Option (Word × BitVec 4)) → State
  | .ok res s => complete res s
  | .raise e s => failTransport e s

/-- `Execute` after the opcode check (60_exceptions R190, R199): the operand check, the mode check, the body, and its
end. -/
def execute (cls : OperandClass) (opd : Word) (rule : ModeRule) (body : Body) (s : State) : State :=
  if operandLegal cls opd then
    if modeAllows rule s.mode then finish (body s)
    else fail .notReady s
  else fail .illegalOperand s

/-- The end of a frame sent as an instruction of its own: no flag and no response where it went out, because it ends no
command; a raise ends with `Fail` (60_exceptions R194). Log entry 5. -/
def finishFrame : Result Frame → State
  | .ok _ s => s
  | .raise e s => failTransport e s

/-- A wire frame as an instruction of its own: the block's step `TxFrame` of that frame (40_codec R115; log entry 5).
`emitted` says whether the block emits the frame in this state; no other frame ever leaves it (30_encoding R96; log
entry 7). In `UNCONFIGURED` nothing is sent (60_exceptions R195, R202; log entry 6). -/
def executeFrame (emitted : Bool) (f : Frame) (s : State) : Host.Outcome State Fault Refusal :=
  if modeAllows .readyOnly s.mode then
    if emitted then .next (finishFrame (txFrame f s))
    else .refused .frameNeverEmitted
  else .next (fail .notReady s)

end Sys2Proof.Machine
end

