-- ==== Sys2Proof/Machine/Begin.lean ====
section
/-! DEFINITION. `BEGIN`: 41_begin R130 to R133. -/

namespace Sys2Proof.Machine

/-- The pin part of `BEGIN` (41_begin R130): chip-select as a deasserted output, then the load-strobe pin, if present,
as an output at `LOW`. -/
def beginPins (s : State) : State :=
  let s1 := pinWrite s.cfg.csPin (csDeassert s.cfg) (pinMode s.cfg.csPin s)
  match s.cfg.ldacPin with
  | some p => pinWrite p .low (pinMode p s1)
  | none => s1

/-- The body of `BEGIN` (41_begin R130): `MODE <- READY` comes last, and only if `BusInit` did not fail. -/
def beginBody (initializeBus : Bool) (s : State) : Result Unit :=
  let s1 := beginPins s
  if initializeBus then
    match busInit s1 with
    | .raise e s' => .raise e s'
    | .ok _ s' => .ok () { s' with mode := .ready }
  else .ok () { s1 with mode := .ready }

/-- `BEGIN b` (41_begin R130). -/
def execBegin (opd : Word) (s : State) : Host.Outcome State Fault Refusal :=
  .next (execute .bool opd .anyMode (fun s => noResult (beginBody (operandBool opd) s)) s)

end Sys2Proof.Machine
end

