-- ==== Sys2Proof/Machine/Control.lean ====
section
/-! DEFINITION. The control-register commands: 43_control R150 to R159. -/

namespace Sys2Proof.Machine

/-- The body of a setter (43_control R150): one field write, no event. -/
def setterBody (f : Field) (val : BitVec 4) (s : State) : Result (Option (Word × BitVec 4)) :=
  .ok none (writeField f val s)

/-- The body of `UPDATE_CONTROL_REGISTER` (43_control R156): the whole image in one write frame. -/
def updateBody (s : State) : Result Unit := writeReg .ctrl s.img s

/-- The body of `ENABLE_OUTPUT` (43_control R157), in the one style there is (decision D21): clear the clamp and the
tristate field, then write the image. -/
def enableOutputBody (s : State) : Result Unit :=
  match s.cfg.enableOutputStyle with
  | .twoChip => updateBody (writeField .dactri 0b0000#4 (writeField .opgnd 0b0000#4 s))

/-- The body of `READ_CONTROL_REGISTER` (43_control R158): the data unshifted, and the echo; `IMG` is not touched. -/
def readControlBody (s : State) : Result (Option (Word × BitVec 4)) :=
  match readReg .ctrl s with
  | .raise e s' => .raise e s'
  | .ok (data, echo) s' => .ok (some (data.setWidth 32, echo)) s'

/-- `SET_INTERNAL_AMPLIFIER b` (43_control R151): the field is a disable bit, so it takes the inverse. -/
def execSetInternalAmplifier (opd : Word) (s : State) : Host.Outcome State Fault Refusal :=
  .next (execute .bool opd .readyOnly (setterBody .rbuf (fieldBit (!operandBool opd))) s)

/-- `SET_OUTPUT_CLAMP b` (43_control R152). -/
def execSetOutputClamp (opd : Word) (s : State) : Host.Outcome State Fault Refusal :=
  .next (execute .bool opd .readyOnly (setterBody .opgnd (fieldBit (operandBool opd))) s)

/-- `SET_TRISTATE_MODE b` (43_control R153). -/
def execSetTristateMode (opd : Word) (s : State) : Host.Outcome State Fault Refusal :=
  .next (execute .bool opd .readyOnly (setterBody .dactri (fieldBit (operandBool opd))) s)

/-- `SET_OFFSET_BINARY b` (43_control R154). -/
def execSetOffsetBinary (opd : Word) (s : State) : Host.Outcome State Fault Refusal :=
  .next (execute .bool opd .readyOnly (setterBody .bin2sc (fieldBit (operandBool opd))) s)

/-- `SET_REFERENCE_INPUT_RANGE b` (43_control R155). -/
def execSetReferenceInputRange (opd : Word) (s : State) : Host.Outcome State Fault Refusal :=
  .next (execute .bool opd .readyOnly (setterBody .lincomp (rangeCode (operandBool opd))) s)

/-- `UPDATE_CONTROL_REGISTER` (43_control R156). -/
def execUpdateControlRegister (opd : Word) (s : State) : Host.Outcome State Fault Refusal :=
  .next (execute .none opd .readyOnly (fun s => noResult (updateBody s)) s)

/-- `ENABLE_OUTPUT` (43_control R157). -/
def execEnableOutput (opd : Word) (s : State) : Host.Outcome State Fault Refusal :=
  .next (execute .none opd .readyOnly (fun s => noResult (enableOutputBody s)) s)

/-- `READ_CONTROL_REGISTER` (43_control R158). -/
def execReadControlRegister (opd : Word) (s : State) : Host.Outcome State Fault Refusal :=
  .next (execute .none opd .readyOnly readControlBody s)

/-- `RESET` (43_control R159): the body of `ENABLE_OUTPUT`, unchanged. -/
def execReset (opd : Word) (s : State) : Host.Outcome State Fault Refusal :=
  .next (execute .none opd .readyOnly (fun s => noResult (enableOutputBody s)) s)

end Sys2Proof.Machine
end

