-- ==== Sys2Proof/Machine/Reserved.lean ====
section
/-! DEFINITION. The reserved opcodes: 30_encoding R93, 60_exceptions R192. In either mode, and whatever the operand,
the effect is `Fail(ILLEGAL_OPCODE)` and nothing else. -/

namespace Sys2Proof.Machine

/-- `RESERVED_0xD` (60_exceptions R192). -/
def execReservedD (_opd : Word) (s : State) : Host.Outcome State Fault Refusal :=
  .next (fail .illegalOpcode s)

/-- `RESERVED_0xE` (60_exceptions R192). -/
def execReservedE (_opd : Word) (s : State) : Host.Outcome State Fault Refusal :=
  .next (fail .illegalOpcode s)

/-- `RESERVED_0xF` (60_exceptions R192). -/
def execReservedF (_opd : Word) (s : State) : Host.Outcome State Fault Refusal :=
  .next (fail .illegalOpcode s)

end Sys2Proof.Machine
end

