-- ==== Sys2Proof/Machine/Value.lean ====
section
/-! DEFINITION. The value commands: 42_value R144 to R146. -/

namespace Sys2Proof.Machine

/-- The body of `SET_VALUE` (42_value R144): the DAC-value write, then the commit. -/
def setValueBody (value : Word) (s : State) : Result Unit :=
  match writeReg .dac ((scaleValue s.cfg.offset value).setWidth 32) s with
  | .raise e s' => .raise e s'
  | .ok _ s' => commit s'

/-- The body of `READ_VALUE` (42_value R145): the descaled data and the echo. -/
def readValueBody (s : State) : Result (Option (Word × BitVec 4)) :=
  match readReg .dac s with
  | .raise e s' => .raise e s'
  | .ok (data, echo) s' => .ok (some (descaleValue s.cfg.offset data, echo)) s'

/-- The body of `SET_CLEAR_CODE` (42_value R146): the clear-code write, no commit. -/
def setClearCodeBody (value : Word) (s : State) : Result Unit :=
  writeReg .clr ((scaleValue s.cfg.offset value).setWidth 32) s

/-- `SET_VALUE n` (42_value R144). -/
def execSetValue (opd : Word) (s : State) : Host.Outcome State Fault Refusal :=
  .next (execute .value opd .readyOnly (fun s => noResult (setValueBody (operandValue opd) s)) s)

/-- `READ_VALUE` (42_value R145). -/
def execReadValue (opd : Word) (s : State) : Host.Outcome State Fault Refusal :=
  .next (execute .none opd .readyOnly readValueBody s)

/-- `SET_CLEAR_CODE n` (42_value R146). -/
def execSetClearCode (opd : Word) (s : State) : Host.Outcome State Fault Refusal :=
  .next (execute .value opd .readyOnly (fun s => noResult (setClearCodeBody (operandValue opd) s)) s)

end Sys2Proof.Machine
end

