-- ==== Sys2Proof/Machine/Wire.lean ====
section
/-! DEFINITION. The wire frames of 30_encoding R96 as instructions: the block sends that frame (40_codec R115), where it is
one that a command of the block sends in this state (R85 to R88, R96). Log entries 5 to 7. -/

namespace Sys2Proof.Machine

/-- A value payload that the block emits: the scaling of some value (30_encoding R85, R86). -/
def valuePayloadEmitted (payload : Payload) (s : State) : Bool :=
  scaleValue s.cfg.offset (descaleValue s.cfg.offset payload) == payload

/-- A control payload that the block emits: `IMG & 0xFFFFF` (30_encoding R87, R96). -/
def imagePayloadEmitted (payload : Payload) (s : State) : Bool := payload == s.img.extractLsb' 0 20

/-- The block emits the load frame: it has no load-strobe pin (42_value R142, R143). -/
def loadFrameEmitted (s : State) : Bool := s.cfg.ldacPin == none

/-- `FRAME_WR_DAC` (42_value R144). -/
def execFrameWrDac (payload : Payload) (s : State) : Host.Outcome State Fault Refusal :=
  executeFrame (valuePayloadEmitted payload s) (encodeFrame .write (regAddr .dac) (payload.setWidth 32)) s

/-- `FRAME_WR_CTRL` (43_control R156). -/
def execFrameWrCtrl (payload : Payload) (s : State) : Host.Outcome State Fault Refusal :=
  executeFrame (imagePayloadEmitted payload s) (encodeFrame .write (regAddr .ctrl) (payload.setWidth 32)) s

/-- `FRAME_WR_CLR` (42_value R146). -/
def execFrameWrClr (payload : Payload) (s : State) : Host.Outcome State Fault Refusal :=
  executeFrame (valuePayloadEmitted payload s) (encodeFrame .write (regAddr .clr) (payload.setWidth 32)) s

/-- `FRAME_WR_SWCTRL_LDAC` (42_value R142). -/
def execFrameWrSwctrlLdac (s : State) : Host.Outcome State Fault Refusal :=
  executeFrame (loadFrameEmitted s) (encodeFrame .write (regAddr .swctrl) loadDacPayload) s

/-- `FRAME_RD_DAC` (42_value R145, 30_encoding R84). -/
def execFrameRdDac (s : State) : Host.Outcome State Fault Refusal :=
  executeFrame true (encodeFrame .read (regAddr .dac) 0#32) s

/-- `FRAME_RD_CTRL` (43_control R158, 30_encoding R84). -/
def execFrameRdCtrl (s : State) : Host.Outcome State Fault Refusal :=
  executeFrame true (encodeFrame .read (regAddr .ctrl) 0#32) s

/-- `FRAME_NOP` (40_codec R117, 30_encoding R84): the zero frame. -/
def execFrameNop (s : State) : Host.Outcome State Fault Refusal :=
  executeFrame true (encodeFrame .write (regAddr .nop) 0#32) s

end Sys2Proof.Machine
end

