-- ==== Sys2Proof/Machine/Dispatch.lean ====
section
/-! DEFINITION. One arm per constructor of Instr. -/

namespace Sys2Proof.Machine

/-- The meaning of an instruction (60_exceptions R190). -/
def exec (i : Instr) (s : State) : Host.Outcome State Fault Refusal :=
  match i with
  | .begin opd => Sys2Proof.Machine.execBegin opd s
  | .setValue opd => Sys2Proof.Machine.execSetValue opd s
  | .readValue opd => Sys2Proof.Machine.execReadValue opd s
  | .setClearCode opd => Sys2Proof.Machine.execSetClearCode opd s
  | .setInternalAmplifier opd => Sys2Proof.Machine.execSetInternalAmplifier opd s
  | .setOutputClamp opd => Sys2Proof.Machine.execSetOutputClamp opd s
  | .setTristateMode opd => Sys2Proof.Machine.execSetTristateMode opd s
  | .setOffsetBinary opd => Sys2Proof.Machine.execSetOffsetBinary opd s
  | .setReferenceInputRange opd => Sys2Proof.Machine.execSetReferenceInputRange opd s
  | .updateControlRegister opd => Sys2Proof.Machine.execUpdateControlRegister opd s
  | .enableOutput opd => Sys2Proof.Machine.execEnableOutput opd s
  | .readControlRegister opd => Sys2Proof.Machine.execReadControlRegister opd s
  | .reset opd => Sys2Proof.Machine.execReset opd s
  | .reservedD opd => Sys2Proof.Machine.execReservedD opd s
  | .reservedE opd => Sys2Proof.Machine.execReservedE opd s
  | .reservedF opd => Sys2Proof.Machine.execReservedF opd s
  | .frameWrDac payload => Sys2Proof.Machine.execFrameWrDac payload s
  | .frameWrCtrl payload => Sys2Proof.Machine.execFrameWrCtrl payload s
  | .frameWrClr payload => Sys2Proof.Machine.execFrameWrClr payload s
  | .frameWrSwctrlLdac => Sys2Proof.Machine.execFrameWrSwctrlLdac s
  | .frameRdDac => Sys2Proof.Machine.execFrameRdDac s
  | .frameRdCtrl => Sys2Proof.Machine.execFrameRdCtrl s
  | .frameNop => Sys2Proof.Machine.execFrameNop s

end Sys2Proof.Machine
end

