-- ==== Sys2Proof/Machine/Step.lean ====
section
/-! DEFINITION. One step: the block takes the next word the host presents and performs it (10_state R43, 20_memory
R62, R63). -/

namespace Sys2Proof.Machine

/-- The block takes the next word, decodes it and runs it, the word consumed. With no word presented it idles with its
state held (60_exceptions R207, 70_reset_and_hazards R211; log entry 1). -/
def step (s : State) : Host.Outcome State Fault Refusal :=
  match s.requests with
  | [] => .next s
  | w :: rest =>
    match decode w with
    | .ok i => exec i { s with requests := rest }
    | .error .frameNeverEmitted => .refused .frameNeverEmitted

/-- The host presents a word of the opcode table next: it stands before the other words (log entries 2 and 15). -/
def State.withFetchWord (s : State) (nbits w : Nat) : State :=
  { s with requests := tableWord nbits w :: s.requests }

end Sys2Proof.Machine
end

