-- ==== Sys2Proof/Machine/Assembler.lean ====
section
/-! DEFINITION. The textual form of a command: its tokens, their meaning, and a line's characters: 30_encoding R100 (log
entry 17). -/

namespace Sys2Proof.Machine

/-- An operand token: a decimal literal, a `0x` literal, or one of the words `false` and `true` (30_encoding R100). -/
inductive AsmOperand where
  | decimal (n : Nat)
  | hex (n : Nat)
  | wordFalse
  | wordTrue
deriving DecidableEq, Repr

/-- A line: a mnemonic and its operand tokens. -/
structure AsmLine where
  mnemonic : String
  operands : List AsmOperand
deriving DecidableEq, Repr

/-- The mnemonics with their opcodes and operand classes (30_encoding R90). -/
def asmTable : List (String × BitVec 4 × OperandClass) := [
  ("BEGIN", 0x0#4, .bool),
  ("SET_VALUE", 0x1#4, .value),
  ("READ_VALUE", 0x2#4, .none),
  ("SET_CLEAR_CODE", 0x3#4, .value),
  ("SET_INTERNAL_AMPLIFIER", 0x4#4, .bool),
  ("SET_OUTPUT_CLAMP", 0x5#4, .bool),
  ("SET_TRISTATE_MODE", 0x6#4, .bool),
  ("SET_OFFSET_BINARY", 0x7#4, .bool),
  ("SET_REFERENCE_INPUT_RANGE", 0x8#4, .bool),
  ("UPDATE_CONTROL_REGISTER", 0x9#4, .none),
  ("ENABLE_OUTPUT", 0xA#4, .none),
  ("READ_CONTROL_REGISTER", 0xB#4, .none),
  ("RESET", 0xC#4, .none)]

/-- `b` in {`0`, `1`, `false`, `true`} (30_encoding R100). -/
def asmBool : AsmOperand → Option Word
  | .decimal 0 => some 0#32
  | .decimal 1 => some 1#32
  | .decimal _ => none
  | .hex _ => none
  | .wordFalse => some 0#32
  | .wordTrue => some 1#32

/-- `n` a decimal or `0x` literal in `0 .. 2^32-1` (30_encoding R100). -/
def asmValue : AsmOperand → Option Word
  | .decimal n => if n < 2 ^ 32 then some (BitVec.ofNat 32 n) else none
  | .hex n => if n < 2 ^ 32 then some (BitVec.ofNat 32 n) else none
  | .wordFalse => none
  | .wordTrue => none

/-- The operand field of a class's operand tokens; a missing or an extra operand has none (30_encoding R100). -/
def asmOperand : OperandClass → List AsmOperand → Option Word
  | .none, [] => some 0#32
  | .none, _ :: _ => none
  | .bool, [o] => asmBool o
  | .bool, _ => none
  | .value, [o] => asmValue o
  | .value, _ => none

/-- The assembler (30_encoding R100): `CW = (OPC << 32) | OPD`; a line it refuses has no encoding. -/
def assemble (line : AsmLine) : Option HostWord :=
  match asmTable.lookup line.mnemonic with
  | none => none
  | some (opc, cls) =>
    match asmOperand cls line.operands with
    | none => none
    | some opd => some (opc ++ opd)

/-- The value of a digit in a base of at most sixteen. -/
def asmDigit (base : Nat) (c : Char) : Option Nat :=
  let v := if '0' ≤ c ∧ c ≤ '9' then c.toNat - 48
    else if 'a' ≤ c ∧ c ≤ 'f' then c.toNat - 87
    else if 'A' ≤ c ∧ c ≤ 'F' then c.toNat - 55
    else base
  if v < base then some v else none

/-- The digits of a literal, the most significant first; no other character may stand among them. -/
def asmDigits (base : Nat) : List Char → Nat → Option Nat
  | [], acc => some acc
  | c :: cs, acc =>
    match asmDigit base c with
    | none => none
    | some v => asmDigits base cs (acc * base + v)

/-- An operand token from its characters: `0x` and hexadecimal digits, `false`, `true`, or decimal digits. -/
def asmToken (cs : List Char) : Option AsmOperand :=
  match cs with
  | [] => none
  | ['0', 'x'] => none
  | '0' :: 'x' :: ds => (asmDigits 16 ds 0).map .hex
  | ['f', 'a', 'l', 's', 'e'] => some .wordFalse
  | ['t', 'r', 'u', 'e'] => some .wordTrue
  | ds => (asmDigits 10 ds 0).map .decimal

/-- All operand tokens of a line, or none where one of them is no token. -/
def asmTokens : List (List Char) → Option (List AsmOperand)
  | [] => some []
  | w :: ws =>
    match asmToken w, asmTokens ws with
    | some o, some os => some (o :: os)
    | _, _ => none

/-- The words of a line, parted by spaces. -/
def asmWords : List Char → List (List Char)
  | [] => []
  | c :: cs =>
    if c = ' ' then asmWords cs
    else
      match cs with
      | [] => [[c]]
      | d :: _ =>
        if d = ' ' then [c] :: asmWords cs
        else
          match asmWords cs with
          | [] => [[c]]
          | w :: ws => (c :: w) :: ws

/-- The assembler on a line's characters (30_encoding R100). -/
def assembleText (line : List Char) : Option HostWord :=
  match asmWords line with
  | [] => none
  | m :: ws =>
    match asmTokens ws with
    | none => none
    | some operands => assemble ⟨String.ofList m, operands⟩

end Sys2Proof.Machine
end

