-- ==== Sys2Proof/Machine/Responder.lean ====
section
/-! DEFINITION. The reference responder of 20_memory R74 to R76: the stand-in for the chip that the spec fixes for test
vectors. It is no part of the block (10_state R47, 00_scope R8 (d)): it only reads the events the block emits, and no
meaning uses it. Log entries 11 and 16. -/

namespace Sys2Proof.Machine

/-- The responder's state (20_memory R74). -/
structure Responder where
  /-- `DACREG`, the input latch. -/
  dacReg : Payload
  /-- `OUTREG`, the output latch. -/
  outReg : Payload
  /-- `CTRLREG`. -/
  ctrlReg : Payload
  /-- `CLRREG`. -/
  clrReg : Payload
  /-- `SDO_NEXT`, shifted out during the next frame. -/
  sdoNext : Frame
  /-- `LDAC_LVL`; `none` is unknown. -/
  ldacLvl : Option Level
deriving DecidableEq, Repr

/-- The start state of every vector (20_memory R74). -/
def responderStart : Responder where
  dacReg := 0#20
  outReg := 0#20
  ctrlReg := 0x0001E#20
  clrReg := 0#20
  sdoNext := 0#24
  ldacLvl := none

/-- `REG(a)` (20_memory R75). -/
def responderReg (r : Responder) (a : BitVec 3) : Option Payload :=
  if a = 0b001#3 then some r.dacReg
  else if a = 0b010#3 then some r.ctrlReg
  else if a = 0b011#3 then some r.clrReg
  else none

/-- A write of `d` to the register at `a` (20_memory R75). -/
def responderWrite (a : BitVec 3) (d : Payload) (r : Responder) : Responder :=
  if a = 0b001#3 then { r with dacReg := d }
  else if a = 0b010#3 then { r with ctrlReg := d }
  else if a = 0b011#3 then { r with clrReg := d }
  else if a = 0b100#3 && d.getLsbD 0 then { r with outReg := r.dacReg }
  else r

/-- One complete frame, at the deassertion of chip-select (20_memory R75). -/
def responderFrame (f : Frame) (r : Responder) : Responder :=
  let a := f.extractLsb' 20 3
  let d := f.extractLsb' 0 20
  if f.getLsbD 23 then
    match responderReg r a with
    | some v => { r with sdoNext := 1#1 ++ a ++ v }
    | none => { r with sdoNext := 0#24 }
  else { responderWrite a d r with sdoNext := 0#24 }

/-- A write of the load-strobe pin (20_memory R76): the falling edge moves the input latch to the output. -/
def responderPin (lvl : Level) (r : Responder) : Responder :=
  if lvl = .low ∧ r.ldacLvl = some .high then { r with outReg := r.dacReg, ldacLvl := some lvl }
  else { r with ldacLvl := some lvl }

/-- The responder on the bus: whether it is selected, and the bytes it has taken in since it was (20_memory R75: a frame is
three exchanged bytes between a chip-select assertion and its deassertion; log entry 16). -/
structure Bench where
  chip : Responder
  selected : Bool
  taken : List Byte
deriving DecidableEq, Repr

/-- What the responder does when chip-select is deasserted: a frame of exactly three bytes is performed, a cut-off one
leaves it unchanged (20_memory R75). -/
def benchFrameEnd (taken : List Byte) (r : Responder) : Responder :=
  match taken with
  | [b2, b1, b0] => responderFrame (b2 ++ b1 ++ b0) r
  | _ => r

/-- The responder sees one event of a block with configuration `c`. -/
def benchEvent (c : Cfg) (b : Bench) : Event → Bench
  | .pinWrite p lvl =>
    if p = c.csPin then
      if lvl = csAssert c then { b with selected := true, taken := [] }
      else if b.selected then ⟨benchFrameEnd b.taken b.chip, false, []⟩
      else b
    else if c.ldacPin = some p then { b with chip := responderPin lvl b.chip }
    else b
  | .xfer _ o (.ok _) => if b.selected then { b with taken := b.taken ++ [o] } else b
  | .xfer _ _ (.err _) => b
  | .pinMode _ => b
  | .busInit _ _ => b
  | .txnBegin _ _ _ _ _ _ => b
  | .txnEnd _ => b

/-- The responder after a list of events, starting deselected. -/
def responderAfter (c : Cfg) (evs : List Event) (r : Responder) : Responder :=
  (evs.foldl (benchEvent c) ⟨r, false, []⟩).chip

/-- The answers of a transport that never fails and has this responder on it, for the frames the block will send: each
frame shifts out `SDO_NEXT`, MSB first (20_memory R75). The first answer of each four is `TxnBegin`'s. -/
def responderAnswers : List Frame → Responder → List BusReply
  | [], _ => []
  | f :: fs, r =>
    .ok 0#8 :: (serialize r.sdoNext).map BusReply.ok ++ responderAnswers fs (responderFrame f r)

end Sys2Proof.Machine
end

