-- ==== Sys2Proof/Safety.lean ====
section
/-! DEFINITION. The terms claims are stated in: the transport's coming answers, the events of a frame, the levels of the
pins, the discipline of the bus, the legal images, and the field values that a history of commands leaves. No meaning
uses anything of this file. -/

namespace Sys2Proof.Machine

/-- The transport's next `n` answers (00_scope R15): what `n` calls in a row would be answered. -/
def upcoming : Nat → State → List BusReply
  | 0, _ => []
  | n + 1, s => (draw s).1 :: upcoming n (draw s).2

/-- The state after `n` answers were taken, everything else as it was. -/
def afterDraws : Nat → State → State
  | 0, s => s
  | n + 1, s => afterDraws n (draw s).2

/-- An answer that is no error. -/
def replyOk : BusReply → Bool
  | .ok _ => true
  | .err _ => false

/-- A run of answers that ends at its first error. -/
def endsAtFirstError (rs : List BusReply) (e : TransportError) : Prop :=
  ∃ oks, rs = oks ++ [.err e] ∧ oks.all replyOk

/-- The answer of a call that returns no byte. -/
def replyAck : BusReply → Ack
  | .ok _ => .ok
  | .err e => .err e

/-- The event of a frame's `TxnBegin` (20_memory R58). -/
def txnBeginEvent (c : Cfg) (a : Ack) : Event := .txnBegin c.bus c.clkHz .msbFirst 0#1 1#1 a

/-- The seven events of a whole frame (40_codec R115), with the bytes received. -/
def frameEvents (c : Cfg) (f : Frame) (i2 i1 i0 : Byte) : List Event := [
  txnBeginEvent c .ok,
  .pinWrite c.csPin (csAssert c),
  .xfer c.bus (f.extractLsb' 16 8) (.ok i2),
  .xfer c.bus (f.extractLsb' 8 8) (.ok i1),
  .xfer c.bus (f.extractLsb' 0 8) (.ok i0),
  .pinWrite c.csPin (csDeassert c),
  .txnEnd c.bus]

/-- The events of a frame that fails (40_codec R115, 60_exceptions R194), by how many bytes had gone out whole: none is
released where `TxnBegin` itself failed. -/
def cutFrameEvents (c : Cfg) (f : Frame) (rs : List BusReply) : List Event :=
  match rs with
  | [] => []
  | .err e :: _ => [txnBeginEvent c (.err e)]
  | .ok _ :: rest =>
    [txnBeginEvent c .ok, .pinWrite c.csPin (csAssert c)]
      ++ List.zipWith (fun o r => Event.xfer c.bus o r) [f.extractLsb' 16 8, f.extractLsb' 8 8, f.extractLsb' 0 8] rest
      ++ [.pinWrite c.csPin (csDeassert c), .txnEnd c.bus]

/-- The pin events of `BEGIN` (41_begin R130), in its order. -/
def beginPinEvents (c : Cfg) : List Event :=
  [.pinMode c.csPin, .pinWrite c.csPin (csDeassert c)] ++
    (match c.ldacPin with | some p => [.pinMode p, .pinWrite p .low] | none => [])

/-- The level of a pin (10_state R46): that of the last `PinWrite` to it, no value before the first. -/
def pinLevel (p : PinId) (trace : List Event) : Option Level :=
  trace.foldl (fun lvl e => match e with
    | .pinWrite q l => if q = p then some l else lvl
    | .pinMode _ => lvl
    | .busInit _ _ => lvl
    | .txnBegin _ _ _ _ _ _ => lvl
    | .xfer _ _ _ => lvl
    | .txnEnd _ => lvl) none

/-- Between commands in `READY` the chip-select rests deasserted and the load-strobe pin rests `LOW` (20_memory R57, 42_value
R141). -/
def pinsAtRest (s : State) : Prop :=
  s.mode = .ready →
    pinLevel s.cfg.csPin s.trace = some (csDeassert s.cfg) ∧
    ∀ p, s.cfg.ldacPin = some p → pinLevel p s.trace = some .low

/-- Where a frame stands on the bus. -/
inductive BusPhase where
  /-- No transaction is open. -/
  | idle
  /-- A transaction is open, chip-select not yet asserted. -/
  | opened
  /-- Chip-select is asserted, and these bytes have gone out. -/
  | selected (sent : List Byte)
  /-- An `Xfer` failed; the bus must be released. -/
  | failed
  /-- Chip-select is deasserted again, the transaction still open. -/
  | released
deriving DecidableEq, Repr

/-- The legal images (10_state R33, R34, R36): bits 0, 5 and 31:10 are zero, and the linearity code is one of the two. -/
abbrev imgLegal (img : Word) : Prop :=
  img &&& 0xFFFFFC21#32 = 0#32 ∧
  (img.extractLsb' 6 4 = 0b0000#4 ∨ img.extractLsb' 6 4 = 0b1100#4)

/-- The frames that can leave a block with configuration `c` (30_encoding R96): a value payload has its low bits, below the
offset, zero (R85, R86), a control payload is that of a legal image (R87; 70_reset_and_hazards R223), and the load
frame belongs to a block without a load-strobe pin (42_value R142). -/
def frameAllowed (c : Cfg) (f : Frame) : Bool :=
  match decodeWire f with
  | .ok (.frameWrDac p) => decide (p.toNat % 2 ^ c.offset = 0)
  | .ok (.frameWrClr p) => decide (p.toNat % 2 ^ c.offset = 0)
  | .ok (.frameWrCtrl p) => decide (imgLegal (p.setWidth 32))
  | .ok .frameWrSwctrlLdac => decide (c.ldacPin = none)
  | .ok .frameRdDac => true
  | .ok .frameRdCtrl => true
  | .ok .frameNop => true
  | .ok _ => false
  | .error _ => false

/-- The bytes sent while the chip was selected are exactly one frame, of those that can leave the block. -/
def sentAllowedFrame (c : Cfg) (sent : List Byte) : Bool :=
  match sent with
  | [b2, b1, b0] => frameAllowed c (b2 ++ b1 ++ b0)
  | _ => false

/-- The discipline of the bus, one event at a time (20_memory R53, R55 to R58, 30_encoding R96, 60_exceptions R194): `none` where
the event breaks it. -/
def busNext (c : Cfg) : BusPhase → Event → Option BusPhase
  | .idle, .pinMode _ => some .idle
  | .idle, .busInit b _ => if b = c.bus then some .idle else none
  | .idle, .pinWrite p l =>
    if p = c.csPin then (if l = csDeassert c then some .idle else none)
    else if c.ldacPin = some p then some .idle else none
  | .idle, .txnBegin b clk order cpol cpha a =>
    if b = c.bus ∧ clk = c.clkHz ∧ order = .msbFirst ∧ cpol = 0#1 ∧ cpha = 1#1 then
      match a with
      | .ok => some .opened
      | .err _ => some .idle
    else none
  | .idle, .xfer _ _ _ => none
  | .idle, .txnEnd _ => none
  | .opened, .pinWrite p l => if p = c.csPin ∧ l = csAssert c then some (.selected []) else none
  | .opened, _ => none
  | .selected sent, .xfer b o r =>
    if b = c.bus ∧ sent.length < 3 then
      match r with
      | .ok _ => some (.selected (sent ++ [o]))
      | .err _ => some .failed
    else none
  | .selected sent, .pinWrite p l =>
    if p = c.csPin ∧ l = csDeassert c ∧ sentAllowedFrame c sent then some .released else none
  | .selected _, _ => none
  | .failed, .pinWrite p l => if p = c.csPin ∧ l = csDeassert c then some .released else none
  | .failed, _ => none
  | .released, .txnEnd b => if b = c.bus then some .idle else none
  | .released, _ => none

/-- The bus after a list of events. -/
def busAfter (c : Cfg) : List Event → BusPhase → Option BusPhase
  | [], ph => some ph
  | e :: es, ph =>
    match busNext c ph e with
    | some ph' => busAfter c es ph'
    | none => none

/-- Every event so far kept the discipline of the bus, and no transaction is open. -/
def busDisciplined (s : State) : Prop := busAfter s.cfg s.trace .idle = some .idle

/-- The reset value of a field (10_state R30). -/
def fieldResetValue : Field → BitVec 4
  | .rbuf => 1#4
  | .opgnd => 1#4
  | .dactri => 1#4
  | .bin2sc => 1#4
  | .sdodis => 0#4
  | .lincomp => 0b0000#4

/-- The setter of a field for an argument (10_state R30, column "written by"); SDO-disable has none (R36). -/
def setterOf : Field → Bool → Option Instr
  | .rbuf, b => some (.setInternalAmplifier (boolOperand b))
  | .opgnd, b => some (.setOutputClamp (boolOperand b))
  | .dactri, b => some (.setTristateMode (boolOperand b))
  | .bin2sc, b => some (.setOffsetBinary (boolOperand b))
  | .sdodis, _ => none
  | .lincomp, b => some (.setReferenceInputRange (boolOperand b))

/-- The value a field's setter writes for an argument (43_control R151 to R155). -/
def setterValue : Field → Bool → BitVec 4
  | .rbuf, b => if b then 0#4 else 1#4
  | .opgnd, b => if b then 1#4 else 0#4
  | .dactri, b => if b then 1#4 else 0#4
  | .bin2sc, b => if b then 1#4 else 0#4
  | .sdodis, _ => 0#4
  | .lincomp, b => if b then 0b1100#4 else 0b0000#4

/-- The value a well-formed command writes into a field, if it writes that field (10_state R30, column "written by";
43_control R157, R159). -/
def fieldWrittenBy : Instr → Field → Option (BitVec 4)
  | .setInternalAmplifier opd, .rbuf => some (if opd = 0#32 then 1#4 else 0#4)
  | .setOutputClamp opd, .opgnd => some (if opd = 0#32 then 0#4 else 1#4)
  | .setTristateMode opd, .dactri => some (if opd = 0#32 then 0#4 else 1#4)
  | .setOffsetBinary opd, .bin2sc => some (if opd = 0#32 then 0#4 else 1#4)
  | .setReferenceInputRange opd, .lincomp => some (if opd = 0#32 then 0b0000#4 else 0b1100#4)
  | .enableOutput _, .opgnd => some 0#4
  | .enableOutput _, .dactri => some 0#4
  | .reset _, .opgnd => some 0#4
  | .reset _, .dactri => some 0#4
  | _, _ => none

/-- Run a list of instructions one after another. -/
def runAll : List Instr → State → Option State
  | [], s => some s
  | i :: is, s =>
    match exec i s with
    | .next s' => runAll is s'
    | .fault _ => none
    | .refused _ => none

/-- The value of the most recent write to a field in a run (10_state R35), `v` where the run writes it nowhere. A write
happens where a well-formed command runs in `READY` (60_exceptions R190). -/
def lastFieldWrite (f : Field) : List Instr → State → BitVec 4 → BitVec 4
  | [], _, v => v
  | i :: is, s, v =>
    let v' := if s.mode = .ready ∧ i.wellFormed then (fieldWrittenBy i f).getD v else v
    match exec i s with
    | .next s' => lastFieldWrite f is s' v'
    | .fault _ => v'
    | .refused _ => v'

end Sys2Proof.Machine
end

