-- ==== Sys2Proof/Certificates/Slice0/Obligations.lean ====
section
/-! DEFINITION. The statements for the provers. Each docstring names the rule of spec/ it rests on. -/

open Sys2Proof Sys2Proof.Machine

/-! ### Encoding, decoding and the step -/

/-- Every instruction, with every operand the encoding admits (the ill-formed ones too), is decoded from its own encoding
(30_encoding R80, R90, R96). That a command keeps its ill-formed operands is log entry 10. -/
def Obligations.DecodeInvertsEncode : Prop :=
  ∀ i : Instr, decode (encode i) = .ok i

/-- Every 36-bit word decodes (30_encoding R92): a reserved instruction comes from opcodes 0xD to 0xF alone, and an
ill-formed command from exactly the words of the other opcodes with a must-be-zero bit set. That nothing of a word is
lost, the operand of a reserved or ill-formed one included, is the model's choice: log entry 10. -/
def Obligations.EveryHostWordHasOneOutcome : Prop :=
  ∀ cw : HostWord,
    encode (decodeHost cw) = .host cw ∧
    ((decodeHost cw).isReserved = true ↔ 0xD ≤ (hostOpcode cw).toNat) ∧
    ((decodeHost cw).isHostCommand = true ↔ (hostOpcode cw).toNat < 0xD) ∧
    ((decodeHost cw).wellFormed = false ↔
      ((hostOpcode cw).toNat ∈ [0x2, 0x9, 0xA, 0xB, 0xC] ∧ (hostOperand cw).toNat ≠ 0) ∨
      ((hostOpcode cw).toNat ∈ [0x0, 0x4, 0x5, 0x6, 0x7, 0x8] ∧ (hostOperand cw).toNat / 2 ≠ 0))

/-- The wire decoder accepts exactly the words of the frame table of 30_encoding R96, and reads each as itself. The spec has
no wire decoder, and that every other word is refused is log entry 7. Which payloads the block sends depends on the
state: `WireFramesNeverEmittedAreRefused`. -/
def Obligations.WireDecoderAcceptsTheEmittedFrames : Prop :=
  ∀ f : Frame,
    ((∃ i, decodeWire f = .ok i) ↔
      f.toNat / 2 ^ 20 ∈ [0x1, 0x2, 0x3] ∨ f.toNat ∈ [0x400001, 0x900000, 0xA00000, 0x000000]) ∧
    (∀ i, decodeWire f = .ok i → i.isFrame = true ∧ encode i = .wire f)

/-- Words written out from the tables of 30_encoding R90, R93 and R96 decode to the instructions they stand for, and two
24-bit words that are no row of R96's table are refused (log entry 7). -/
def Obligations.SampleWordsDecode : Prop :=
  decodeTableWord 40 0x000000001 = some (.begin 1#32) ∧
  decodeTableWord 40 0x100001234 = some (.setValue 0x1234#32) ∧
  decodeTableWord 40 0x200000000 = some (.readValue 0#32) ∧
  decodeTableWord 40 0x300080000 = some (.setClearCode 0x80000#32) ∧
  decodeTableWord 40 0x800000001 = some (.setReferenceInputRange 1#32) ∧
  decodeTableWord 40 0xC00000000 = some (.reset 0#32) ∧
  decodeTableWord 40 0xE00000005 = some (.reservedE 5#32) ∧
  decodeTableWord 24 0x1048D0 = some (.frameWrDac 0x048D0#20) ∧
  decodeTableWord 24 0x400001 = some .frameWrSwctrlLdac ∧
  decodeTableWord 24 0x400003 = none ∧
  decodeTableWord 24 0xB00000 = none

/-- One step takes the next presented word, consumes it and runs what it decodes to (10_state R43, 20_memory R63); with no word
presented the state is held (60_exceptions R207); a 24-bit word that is no row of the frame table is refused (93 U12).
The queue of words, the idling step and the refusal are the model's: log entries 1 and 7. -/
def Obligations.StepRunsTheDecodedWord : Prop :=
  ∀ s : State,
    (s.requests = [] → step s = .next s) ∧
    (∀ w rest i, s.requests = w :: rest → decode w = .ok i → step s = exec i { s with requests := rest }) ∧
    (∀ w rest e, s.requests = w :: rest → decode w = .error e → step s = .refused .frameNeverEmitted)

/-- A word of the opcode table that is presented next is the one the next step runs (log entries 2 and 15). -/
def Obligations.PresentedTableWordRunsNext : Prop :=
  ∀ (s : State) (nbits w : Nat) (i : Instr),
    decodeTableWord nbits w = some i → step (s.withFetchWord nbits w) = exec i s

/-! ### Construction and reset -/

/-- Which configurations construction refuses (00_scope R11; decisions D7 and D29). -/
def Obligations.ConstructionRefusesBadConfigurations : Prop :=
  ∀ c : Cfg,
    construct c = none ↔ (c.offset ≠ 0 ∧ c.offset ≠ 2) ∨ c.clkHz = 0 ∨ c.ldacPin = some c.csPin

/-- The reset values of 70_reset_and_hazards R210's table, for every accepted configuration; no pin has a level yet
(10_state R46); and the defaults of 00_scope R10 in the reset state. -/
def Obligations.ConstructionGivesResetValues : Prop :=
  (∀ c s, construct c = some s →
    s.cfg = c ∧ s.mode = .unconfigured ∧ s.img = 0x0000001E#32 ∧ s.status = 0b0000#4 ∧ s.lastCause = .none ∧
    s.terr = none ∧ s.trace = [] ∧ ∀ p, pinLevel p s.trace = none) ∧
  construct State.reset.cfg = some State.reset ∧
  State.reset.cfg.csActive = .low ∧ State.reset.cfg.ldacPin = none ∧ State.reset.cfg.clkHz = 1000000

/-! ### The codec -/

/-- `encodeFrame` (40_codec R110): direction, address and the low twenty payload bits side by side, and each of them in its
place (30_encoding R80 to R82). -/
def Obligations.EncodeFramePlacesItsFields : Prop :=
  ∀ (d : Dir) (a : BitVec 3) (p : Word),
    encodeFrame d a p = dirBit d ++ a ++ p.extractLsb' 0 20 ∧
    (encodeFrame d a p).toNat =
      (match d with | .write => 0 | .read => 1) * 2 ^ 23 + a.toNat * 2 ^ 20 + p.toNat % 2 ^ 20 ∧
    encodeFrame .write 0#3 0#32 = 0x000000#24 ∧
    encodeFrame .write 0b010#3 0x31E#32 = 0x20031E#24

/-- `serialize` sends a frame's bytes most significant first, and the bytes put together the same way are the frame
(40_codec R111, 20_memory R53, R54). -/
def Obligations.SerializeIsMostSignificantFirst : Prop :=
  ∀ f : Frame, ∃ b2 b1 b0 : Byte,
    serialize f = [b2, b1, b0] ∧ f = b2 ++ b1 ++ b0 ∧
    f.toNat = b2.toNat * 2 ^ 16 + b1.toNat * 2 ^ 8 + b0.toNat

/-- `decodeReadback` (40_codec R112) loses no bit: the data are the low twenty, the echo the high four, unchecked. -/
def Obligations.DecodeReadbackSplitsTheResponse : Prop :=
  ∀ r : Frame,
    (decodeReadback r).1.toNat = r.toNat % 2 ^ 20 ∧
    (decodeReadback r).2.toNat = r.toNat / 2 ^ 20 ∧
    (decodeReadback r).2 ++ (decodeReadback r).1 = r ∧
    decodeReadback 0xFFFFFF#24 = (0xFFFFF#20, 0xF#4) ∧
    decodeReadback 0x9048D0#24 = (0x048D0#20, 0x9#4)

/-- `scaleValue` (40_codec R113) for both variants: shift, then truncate to twenty bits, with its corner cases. -/
def Obligations.ScaleValueShiftsThenTruncates : Prop :=
  (∀ v : Word, (scaleValue 2 v).toNat = v.toNat % 2 ^ 18 * 4) ∧
  (∀ v : Word, (scaleValue 0 v).toNat = v.toNat % 2 ^ 20) ∧
  (∀ (o : Nat) (v : Word), o = 0 ∨ o = 2 → scaleValue o v = ((v <<< o) &&& 0xFFFFF#32).setWidth 20) ∧
  scaleValue 2 0x3FFFF#32 = 0xFFFFC#20 ∧ scaleValue 2 0x40000#32 = 0#20 ∧ scaleValue 2 0xFFFFFFFF#32 = 0xFFFFC#20 ∧
  scaleValue 0 0xFFFFF#32 = 0xFFFFF#20 ∧ scaleValue 0 0x100000#32 = 0#20 ∧ scaleValue 2 0x1234#32 = 0x048D0#20

/-- `descaleValue` (40_codec R114): a logical shift right by the offset, always below `2^VALUE_BITS`. -/
def Obligations.DescaleValueIsBounded : Prop :=
  (∀ (o : Nat) (d : Payload), o = 0 ∨ o = 2 →
    descaleValue o d = (d >>> o).setWidth 32 ∧
    (descaleValue o d).toNat = d.toNat / 2 ^ o ∧
    (descaleValue o d).toNat < 2 ^ valueBits o) ∧
  descaleValue 2 0x00003#20 = 0#32 ∧ descaleValue 2 0x048D0#20 = 0x1234#32

/-- The arithmetic laws (a) to (e) that 40_codec R119 derives for both variants. -/
def Obligations.CodecArithmeticLaws : Prop :=
  ∀ o : Nat, o = 0 ∨ o = 2 →
    (∀ v : Word, descaleValue o (scaleValue o v) = v &&& valueMask o) ∧
    (∀ d : Payload, scaleValue o (descaleValue o d) = d &&& (0xFFFFF#20 &&& ~~~((1#20 <<< o) - 1#20))) ∧
    (∀ (d : Dir) (a : BitVec 3) (p : Word), encodeFrame d a p = encodeFrame d a (p &&& 0xFFFFF#32)) ∧
    (∀ f : Frame, f = encodeFrame (if f.getLsbD 23 then .read else .write) (f.extractLsb' 20 3)
      ((f.extractLsb' 0 20).setWidth 32)) ∧
    (∀ v : Word, scaleValue o v = scaleValue o (v &&& valueMask o))

/-- Silent truncation (30_encoding R82, 60_exceptions R201): the two value commands depend on the low `VALUE_BITS` bits of
their operand alone, and no operand of theirs raises a cause or sets a flag: where the transport is good they complete. -/
def Obligations.ValueCommandsTruncateSilently : Prop :=
  (∀ (s : State) (v : Word), s.cfg.offset = 0 ∨ s.cfg.offset = 2 →
    exec (.setValue v) s = exec (.setValue (v &&& valueMask s.cfg.offset)) s ∧
    exec (.setClearCode v) s = exec (.setClearCode (v &&& valueMask s.cfg.offset)) s) ∧
  (∀ (s t : State) (v : Word), s.mode = .ready → (upcoming 8 s).all replyOk = true →
    exec (.setValue v) s = .next t ∨ exec (.setClearCode v) s = .next t →
    t.lastCause = .none ∧ t.status = s.status)

/-! ### The image and its setters -/

/-- Field isolation (10_state R32) with R32's table: a written field holds the value, every other field and every bit
outside the mask stays, and the image is the formula of R32 for a value that fits its field. -/
def Obligations.FieldWriteChangesOneField : Prop :=
  (∀ (f : Field) (val : BitVec 4) (img : Word), val.toNat < 2 ^ fieldWidth f →
    fieldWrite f val img = (img &&& ~~~ fieldMask f) ||| (val.setWidth 32 <<< fieldPos f) ∧
    fieldRead f (fieldWrite f val img) = val) ∧
  (∀ (f : Field) (val : BitVec 4) (img : Word),
    fieldWrite f val img &&& ~~~ fieldMask f = img &&& ~~~ fieldMask f ∧
    ∀ g, g ≠ f → fieldRead g (fieldWrite f val img) = fieldRead g img) ∧
  [Field.rbuf, .opgnd, .dactri, .bin2sc, .sdodis, .lincomp].map fieldPos = [1, 2, 3, 4, 5, 6] ∧
  [Field.rbuf, .opgnd, .dactri, .bin2sc, .sdodis, .lincomp].map fieldMask
    = [0x002#32, 0x004#32, 0x008#32, 0x010#32, 0x020#32, 0x3C0#32]

/-- What a field setter does in `READY` with a boolean operand (43_control R150 to R155): the image of the rule, no
event, a completed response, everything else as it was. The images are written with R32's masks. -/
def Obligations.SettersWriteTheirFieldAlone : Prop :=
  ∀ (s : State) (b : Bool), s.mode = .ready →
    exec (.setInternalAmplifier (boolOperand b)) s = .next { s with
      img := if b then s.img &&& ~~~0x002#32 else s.img ||| 0x002#32
      lastCause := .none, responses := s.responses ++ [⟨.none, none, s.status⟩] } ∧
    exec (.setOutputClamp (boolOperand b)) s = .next { s with
      img := if b then s.img ||| 0x004#32 else s.img &&& ~~~0x004#32
      lastCause := .none, responses := s.responses ++ [⟨.none, none, s.status⟩] } ∧
    exec (.setTristateMode (boolOperand b)) s = .next { s with
      img := if b then s.img ||| 0x008#32 else s.img &&& ~~~0x008#32
      lastCause := .none, responses := s.responses ++ [⟨.none, none, s.status⟩] } ∧
    exec (.setOffsetBinary (boolOperand b)) s = .next { s with
      img := if b then s.img ||| 0x010#32 else s.img &&& ~~~0x010#32
      lastCause := .none, responses := s.responses ++ [⟨.none, none, s.status⟩] } ∧
    exec (.setReferenceInputRange (boolOperand b)) s = .next { s with
      img := if b then (s.img &&& ~~~0x3C0#32) ||| 0x300#32 else s.img &&& ~~~0x3C0#32
      lastCause := .none, responses := s.responses ++ [⟨.none, none, s.status⟩] }

/-- The setter algebra (a) to (e) that 43_control R160 derives, in `READY`; (d) is the corrected form of 90_conflicts
C1. -/
def Obligations.SetterAlgebraHolds : Prop :=
  (∀ (f : Field) (a b : Bool) (i j : Instr) (s : State),
    setterOf f a = some i → setterOf f b = some j → s.mode = .ready →
    ∃ t u v, exec i s = .next t ∧ exec j t = .next u ∧ exec j s = .next v ∧ u.img = v.img ∧
      t.img &&& ~~~ fieldMask f = s.img &&& ~~~ fieldMask f ∧
      (a = true → b = false → (u.img = s.img ↔ fieldRead f s.img = setterValue f false))) ∧
  (∀ (f g : Field) (a b : Bool) (i j : Instr) (s : State),
    f ≠ g → setterOf f a = some i → setterOf g b = some j → s.mode = .ready →
    ∃ t u v w, exec i s = .next t ∧ exec j t = .next u ∧ exec j s = .next v ∧ exec i v = .next w ∧ u.img = w.img)

/-- One step of the union property (10_state R35, R30; 43_control R151 to R155, R157, R159): a well-formed instruction that runs
in `READY` leaves in each field the value it writes there, and every other field, and every field where the instruction
is ill-formed or does not run, as it was. -/
def Obligations.EachInstructionWritesItsFieldsAlone : Prop :=
  ∀ (i : Instr) (s t : State) (f : Field), exec i s = .next t →
    fieldRead f t.img =
      if s.mode = .ready ∧ i.wellFormed = true then (fieldWrittenBy i f).getD (fieldRead f s.img)
      else fieldRead f s.img

/-- The union property (10_state R35): after any run of instructions from construction, whatever the transport answers,
each field holds the value of the most recent write to it, or its reset value. -/
def Obligations.FieldsHoldTheirLastWrite : Prop :=
  ∀ (c : Cfg) (answers : List BusReply) (is : List Instr) (t : State) (f : Field),
    runAll is { State.initial c with answers := answers } = some t →
    fieldRead f t.img
      = lastFieldWrite f is { State.initial c with answers := answers } (fieldResetValue f)

/-- Who writes the image (10_state R29): a step that changes it ran one of the five setters or one of the two sequences,
in `READY`. -/
def Obligations.OnlySettersAndSequencesWriteTheImage : Prop :=
  ∀ (i : Instr) (s t : State), exec i s = .next t → t.img ≠ s.img →
    s.mode = .ready ∧ i.wellFormed = true ∧
    ((∃ opd, i = .setInternalAmplifier opd ∨ i = .setOutputClamp opd ∨ i = .setTristateMode opd ∨
        i = .setOffsetBinary opd ∨ i = .setReferenceInputRange opd) ∨
     (∃ opd, i = .enableOutput opd ∨ i = .reset opd))

/-- The legal-value and hardwired-zero invariants (10_state R33, R34, R36), kept by every step from every state that has
them; a legal image loses no bit in the payload of its frame. -/
def Obligations.ImageStaysLegal : Prop :=
  (∀ s t : State, imgLegal s.img → step s = .next t → imgLegal t.img) ∧
  (∀ img : Word, imgLegal img → (img.setWidth 20).setWidth 32 = img ∧ fieldRead .sdodis img = 0#4)

/-- The three invariants hold right after construction (10_state R31, R33, R34; 20_memory R57). -/
def Obligations.InvariantsHoldAtConstruction : Prop :=
  ∀ c : Cfg, imgLegal (State.initial c).img ∧ busDisciplined (State.initial c) ∧ pinsAtRest (State.initial c)

/-! ### The commands, completed -/

/-- `BEGIN` (41_begin R130 to R133), completed, in either mode: its pin events, `BusInit` only where asked for, then
`READY`; no frame, the image untouched. -/
def Obligations.BeginCompletes : Prop :=
  ∀ s : State,
    exec (.begin 0#32) s = .next { s with
      mode := .ready, trace := s.trace ++ beginPinEvents s.cfg
      lastCause := .none, responses := s.responses ++ [⟨.none, none, s.status⟩] } ∧
    (∀ x, upcoming 1 s = [.ok x] →
      exec (.begin 1#32) s = .next { afterDraws 1 s with
        mode := .ready, trace := s.trace ++ beginPinEvents s.cfg ++ [.busInit s.cfg.bus .ok]
        lastCause := .none, responses := s.responses ++ [⟨.none, none, s.status⟩] })

/-- `BEGIN 1` whose `BusInit` fails (41_begin R130, 60_exceptions R194): the pin events stay, the mode keeps its value. -/
def Obligations.BeginFailureKeepsTheMode : Prop :=
  ∀ (s : State) (e : TransportError), upcoming 1 s = [.err e] →
    exec (.begin 1#32) s = .next { afterDraws 1 s with
      trace := s.trace ++ beginPinEvents s.cfg ++ [.busInit s.cfg.bus (.err e)]
      terr := some e, lastCause := .transport, status := s.status ||| 0b1000#4
      responses := s.responses ++ [⟨.transport, none, s.status ||| 0b1000#4⟩] }

/-- Idempotence of `BEGIN` (41_begin R131): a second one with the same operand, the transport answering the same way,
emits the same events and leaves `MODE`, `IMG`, `STATUS` and `LAST_CAUSE` as the first left them. -/
def Obligations.BeginIsIdempotent : Prop :=
  ∀ (s t u : State) (opd : Word),
    exec (.begin opd) s = .next t → exec (.begin opd) t = .next u →
    (opd = 1#32 → (upcoming 1 t).map replyAck = (upcoming 1 s).map replyAck) →
    (∃ evs, t.trace = s.trace ++ evs ∧ u.trace = t.trace ++ evs) ∧
    u.mode = t.mode ∧ u.img = t.img ∧ u.status = t.status ∧ u.lastCause = t.lastCause

/-- `SET_VALUE` with a load-strobe pin (42_value R140, R141, R143, R144): one frame, then the pin high and low, nothing
else, whatever the coding field of the image is. -/
def Obligations.SetValueCompletesWithPinPulse : Prop :=
  ∀ (s : State) (v : Word) (p : PinId) (x i2 i1 i0 : Byte),
    s.mode = .ready → s.cfg.ldacPin = some p →
    upcoming 4 s = [.ok x, .ok i2, .ok i1, .ok i0] →
    exec (.setValue v) s = .next { afterDraws 4 s with
      trace := s.trace ++ frameEvents s.cfg (0x1#4 ++ scaleValue s.cfg.offset v) i2 i1 i0
        ++ [.pinWrite p .high, .pinWrite p .low]
      lastCause := .none, responses := s.responses ++ [⟨.none, none, s.status⟩] }

/-- `SET_VALUE` without a load-strobe pin (42_value R140, R142, R143, R144): the value frame, then at once the load frame
0x400001. -/
def Obligations.SetValueCompletesWithLoadFrame : Prop :=
  ∀ (s : State) (v : Word) (x i2 i1 i0 y j2 j1 j0 : Byte),
    s.mode = .ready → s.cfg.ldacPin = none →
    upcoming 8 s = [.ok x, .ok i2, .ok i1, .ok i0, .ok y, .ok j2, .ok j1, .ok j0] →
    exec (.setValue v) s = .next { afterDraws 8 s with
      trace := s.trace ++ frameEvents s.cfg (0x1#4 ++ scaleValue s.cfg.offset v) i2 i1 i0
        ++ frameEvents s.cfg 0x400001#24 j2 j1 j0
      lastCause := .none, responses := s.responses ++ [⟨.none, none, s.status⟩] }

/-- `SET_CLEAR_CODE` (42_value R146): one frame and no commit, with or without a load-strobe pin. -/
def Obligations.SetClearCodeCompletesWithoutCommit : Prop :=
  ∀ (s : State) (v : Word) (x i2 i1 i0 : Byte),
    s.mode = .ready → upcoming 4 s = [.ok x, .ok i2, .ok i1, .ok i0] →
    exec (.setClearCode v) s = .next { afterDraws 4 s with
      trace := s.trace ++ frameEvents s.cfg (0x3#4 ++ scaleValue s.cfg.offset v) i2 i1 i0
      lastCause := .none, responses := s.responses ++ [⟨.none, none, s.status⟩] }

/-- `READ_VALUE` (42_value R145, 40_codec R117): frames 0x900000 and 0x000000; the response carries the low twenty bits of
the second frame's bytes shifted right by the offset, and its high four. -/
def Obligations.ReadValueCompletes : Prop :=
  ∀ (s : State) (x i2 i1 i0 y j2 j1 j0 : Byte),
    s.mode = .ready →
    upcoming 8 s = [.ok x, .ok i2, .ok i1, .ok i0, .ok y, .ok j2, .ok j1, .ok j0] →
    exec (.readValue 0#32) s = .next { afterDraws 8 s with
      trace := s.trace ++ frameEvents s.cfg 0x900000#24 i2 i1 i0 ++ frameEvents s.cfg 0x000000#24 j2 j1 j0
      lastCause := .none
      responses := s.responses ++
        [⟨.none, some ((((j2 ++ j1 ++ j0).extractLsb' 0 20) >>> s.cfg.offset).setWidth 32, j2.extractLsb' 4 4),
          s.status⟩] }

/-- `READ_CONTROL_REGISTER` (43_control R158, 40_codec R117): frames 0xA00000 and 0x000000; the data come back unshifted,
and the image is not touched. -/
def Obligations.ReadControlRegisterCompletes : Prop :=
  ∀ (s : State) (x i2 i1 i0 y j2 j1 j0 : Byte),
    s.mode = .ready →
    upcoming 8 s = [.ok x, .ok i2, .ok i1, .ok i0, .ok y, .ok j2, .ok j1, .ok j0] →
    exec (.readControlRegister 0#32) s = .next { afterDraws 8 s with
      trace := s.trace ++ frameEvents s.cfg 0xA00000#24 i2 i1 i0 ++ frameEvents s.cfg 0x000000#24 j2 j1 j0
      lastCause := .none
      responses := s.responses ++
        [⟨.none, some (((j2 ++ j1 ++ j0).extractLsb' 0 20).setWidth 32, j2.extractLsb' 4 4), s.status⟩] }

/-- `UPDATE_CONTROL_REGISTER` (43_control R156): the low twenty bits of the image in one control-register write frame,
whatever was written before. -/
def Obligations.UpdateControlRegisterCompletes : Prop :=
  ∀ (s : State) (x i2 i1 i0 : Byte),
    s.mode = .ready → upcoming 4 s = [.ok x, .ok i2, .ok i1, .ok i0] →
    exec (.updateControlRegister 0#32) s = .next { afterDraws 4 s with
      trace := s.trace ++ frameEvents s.cfg (0x2#4 ++ s.img.extractLsb' 0 20) i2 i1 i0
      lastCause := .none, responses := s.responses ++ [⟨.none, none, s.status⟩] }

/-- `ENABLE_OUTPUT` and `RESET` (43_control R157, R159): clamp and tristate cleared, the other bits kept, and the new image
written out. The two have the same effect. -/
def Obligations.EnableOutputAndResetComplete : Prop :=
  ∀ (s : State) (x i2 i1 i0 : Byte),
    s.mode = .ready → upcoming 4 s = [.ok x, .ok i2, .ok i1, .ok i0] →
    exec (.enableOutput 0#32) s = .next { afterDraws 4 s with
      img := s.img &&& ~~~0x00C#32
      trace := s.trace ++ frameEvents s.cfg (0x2#4 ++ (s.img &&& ~~~0x00C#32).extractLsb' 0 20) i2 i1 i0
      lastCause := .none, responses := s.responses ++ [⟨.none, none, s.status⟩] } ∧
    exec (.reset 0#32) s = .next { afterDraws 4 s with
      img := s.img &&& ~~~0x00C#32
      trace := s.trace ++ frameEvents s.cfg (0x2#4 ++ (s.img &&& ~~~0x00C#32).extractLsb' 0 20) i2 i1 i0
      lastCause := .none, responses := s.responses ++ [⟨.none, none, s.status⟩] }

/-- `RESET` is `ENABLE_OUTPUT` under another opcode (43_control R159): the same next state for every operand, in every
mode and whatever the transport answers. -/
def Obligations.ResetActsAsEnableOutput : Prop :=
  ∀ (opd : Word) (s : State), exec (.reset opd) s = exec (.enableOutput opd) s

/-- The seven wire frames as instructions, completed in `READY` where the block emits that frame (40_codec R115, 30_encoding R85 to
R88, R96): a value frame with a scaled value, the control frame with `IMG[19:0]`, the load frame without a load-strobe
pin, the other three always. The effect is the events of that frame and nothing else, no flag, no response. That a
frame is an instruction of its own is the model's choice: log entry 5. -/
def Obligations.WireFramesComplete : Prop :=
  ∀ (s : State) (v : Word) (x i2 i1 i0 : Byte),
    s.mode = .ready → upcoming 4 s = [.ok x, .ok i2, .ok i1, .ok i0] →
    ∀ i f, (i, f) ∈ [
        (Instr.frameWrDac (scaleValue s.cfg.offset v), 0x1#4 ++ scaleValue s.cfg.offset v),
        (.frameWrCtrl (s.img.extractLsb' 0 20), 0x2#4 ++ s.img.extractLsb' 0 20),
        (.frameWrClr (scaleValue s.cfg.offset v), 0x3#4 ++ scaleValue s.cfg.offset v),
        (.frameWrSwctrlLdac, 0x400001#24), (.frameRdDac, 0x900000#24), (.frameRdCtrl, 0xA00000#24),
        (.frameNop, 0x000000#24)] →
      (i = .frameWrSwctrlLdac → s.cfg.ldacPin = none) →
      exec i s = .next { afterDraws 4 s with trace := s.trace ++ frameEvents s.cfg f i2 i1 i0 }

/-- No other frame ever leaves the block (30_encoding R85 to R87, R96, 42_value R142, R143): in `READY` a wire frame is refused
exactly where no command of the block sends it in this state: a value payload that is no scaled value, a control
payload that is not `IMG[19:0]`, the load frame where there is a load-strobe pin. That it is refused by name is log
entry 7. -/
def Obligations.WireFramesNeverEmittedAreRefused : Prop :=
  ∀ (i : Instr) (s : State), i.isFrame = true → s.mode = .ready →
    (exec i s = .refused .frameNeverEmitted ↔
      (∃ p, (i = .frameWrDac p ∨ i = .frameWrClr p) ∧ ∀ v, scaleValue s.cfg.offset v ≠ p) ∨
      (∃ p, i = .frameWrCtrl p ∧ p ≠ s.img.extractLsb' 0 20) ∨
      (i = .frameWrSwctrlLdac ∧ s.cfg.ldacPin ≠ none))

/-! ### Failures -/

/-- Reserved opcodes (60_exceptions R192): in either mode, whatever the operand, the effect is only
`Fail(ILLEGAL_OPCODE)`. -/
def Obligations.ReservedOpcodesFail : Prop :=
  ∀ (i : Instr) (s : State), i.isReserved = true →
    exec i s = .next { s with
      status := s.status ||| 0b0001#4, lastCause := .illegalOpcode
      responses := s.responses ++ [⟨.illegalOpcode, none, s.status ||| 0b0001#4⟩] }

/-- A legal opcode with a must-be-zero bit set (60_exceptions R193): in either mode the effect is only
`Fail(ILLEGAL_OPERAND)`. -/
def Obligations.IllegalOperandsFail : Prop :=
  ∀ (i : Instr) (s : State), i.wellFormed = false →
    exec i s = .next { s with
      status := s.status ||| 0b0010#4, lastCause := .illegalOperand
      responses := s.responses ++ [⟨.illegalOperand, none, s.status ||| 0b0010#4⟩] }

/-- Every legal command but `BEGIN` in `UNCONFIGURED` (60_exceptions R195): the effect is only `Fail(NOT_READY)`. -/
def Obligations.CommandsBeforeBeginFail : Prop :=
  ∀ (i : Instr) (s : State),
    i.isHostCommand = true → i.wellFormed = true → (∀ opd, i ≠ .begin opd) → s.mode = .unconfigured →
    exec i s = .next { s with
      status := s.status ||| 0b0100#4, lastCause := .notReady
      responses := s.responses ++ [⟨.notReady, none, s.status ||| 0b0100#4⟩] }

/-- A wire frame as an instruction in `UNCONFIGURED` sends nothing (60_exceptions R202). That it then ends as a command
does is the model's choice: log entry 6. -/
def Obligations.WireFramesBeforeBeginFail : Prop :=
  ∀ (i : Instr) (s : State), i.isFrame = true → s.mode = .unconfigured →
    exec i s = .next { s with
      status := s.status ||| 0b0100#4, lastCause := .notReady
      responses := s.responses ++ [⟨.notReady, none, s.status ||| 0b0100#4⟩] }

/-- `TxFrame` (40_codec R115, 60_exceptions R194 (a), (b)): with four good answers the seven events and the 24 bits
received; with an error at any of the four calls the events up to it, the bus released if it had been opened, and the
error raised. -/
def Obligations.TxFrameAnswersEveryWay : Prop :=
  ∀ (f : Frame) (s : State),
    (∀ x i2 i1 i0, upcoming 4 s = [.ok x, .ok i2, .ok i1, .ok i0] →
      txFrame f s = .ok (i2 ++ i1 ++ i0)
        { afterDraws 4 s with trace := s.trace ++ frameEvents s.cfg f i2 i1 i0 }) ∧
    (∀ n e, 1 ≤ n → n ≤ 4 → endsAtFirstError (upcoming n s) e →
      txFrame f s = .raise e
        { afterDraws n s with trace := s.trace ++ cutFrameEvents s.cfg f (upcoming n s) })

/-- A one-frame command that fails on the bus (60_exceptions R194, 43_control R156, 42_value R146): the cut frame, `TERR`, the
sticky flag, and nothing of the command after it. -/
def Obligations.OneFrameCommandsFailOnTheBus : Prop :=
  ∀ (s : State) (n : Nat) (e : TransportError) (v : Word),
    s.mode = .ready → 1 ≤ n → n ≤ 4 → endsAtFirstError (upcoming n s) e →
    ∀ i f, (i, f) ∈ [
        (Instr.updateControlRegister 0#32, 0x2#4 ++ s.img.extractLsb' 0 20),
        (.setClearCode v, 0x3#4 ++ scaleValue s.cfg.offset v),
        (.setValue v, 0x1#4 ++ scaleValue s.cfg.offset v),
        (.readValue 0#32, 0x900000#24),
        (.readControlRegister 0#32, 0xA00000#24)] →
      exec i s = .next { afterDraws n s with
        trace := s.trace ++ cutFrameEvents s.cfg f (upcoming n s)
        terr := some e, lastCause := .transport, status := s.status ||| 0b1000#4
        responses := s.responses ++ [⟨.transport, none, s.status ||| 0b1000#4⟩] }

/-- A wire frame as an instruction that fails on the bus (60_exceptions R194, 40_codec R115), where the block emits that frame
(30_encoding R96): the cut frame, the bus released, `TERR` and `Fail(TRANSPORT)`. That a frame is an instruction of its
own is the model's choice: log entry 5. -/
def Obligations.WireFramesFailOnTheBus : Prop :=
  ∀ (s : State) (n : Nat) (e : TransportError) (v : Word),
    s.mode = .ready → 1 ≤ n → n ≤ 4 → endsAtFirstError (upcoming n s) e →
    ∀ i f, (i, f) ∈ [
        (Instr.frameWrDac (scaleValue s.cfg.offset v), 0x1#4 ++ scaleValue s.cfg.offset v),
        (.frameWrCtrl (s.img.extractLsb' 0 20), 0x2#4 ++ s.img.extractLsb' 0 20),
        (.frameWrClr (scaleValue s.cfg.offset v), 0x3#4 ++ scaleValue s.cfg.offset v),
        (.frameWrSwctrlLdac, 0x400001#24), (.frameRdDac, 0x900000#24), (.frameRdCtrl, 0xA00000#24),
        (.frameNop, 0x000000#24)] →
      (i = .frameWrSwctrlLdac → s.cfg.ldacPin = none) →
      exec i s = .next { afterDraws n s with
        trace := s.trace ++ cutFrameEvents s.cfg f (upcoming n s)
        terr := some e, lastCause := .transport, status := s.status ||| 0b1000#4
        responses := s.responses ++ [⟨.transport, none, s.status ||| 0b1000#4⟩] }

/-- `ENABLE_OUTPUT` and `RESET` failing on the bus (43_control R157, 60_exceptions R194): the field writes stay in the
image, no roll-back. -/
def Obligations.FailedEnableOutputKeepsItsFieldWrites : Prop :=
  ∀ (s : State) (n : Nat) (e : TransportError) (i : Instr),
    s.mode = .ready → 1 ≤ n → n ≤ 4 → endsAtFirstError (upcoming n s) e →
    i = .enableOutput 0#32 ∨ i = .reset 0#32 →
    exec i s = .next { afterDraws n s with
      img := s.img &&& ~~~0x00C#32
      trace := s.trace ++
        cutFrameEvents s.cfg (0x2#4 ++ (s.img &&& ~~~0x00C#32).extractLsb' 0 20) (upcoming n s)
      terr := some e, lastCause := .transport, status := s.status ||| 0b1000#4
      responses := s.responses ++ [⟨.transport, none, s.status ||| 0b1000#4⟩] }

/-- A two-frame command whose first frame went out whole and whose second fails (42_value R142, R144, R145, 43_control R158,
60_exceptions R197): the first frame stays, the second is cut, there is no result. -/
def Obligations.SecondFrameFailureKeepsTheFirst : Prop :=
  ∀ (s : State) (n : Nat) (e : TransportError) (v : Word) (x i2 i1 i0 : Byte),
    s.mode = .ready → upcoming 4 s = [.ok x, .ok i2, .ok i1, .ok i0] →
    1 ≤ n → n ≤ 4 → endsAtFirstError (upcoming n (afterDraws 4 s)) e →
    ∀ i f g, (i, f, g) ∈ [
        (Instr.setValue v, 0x1#4 ++ scaleValue s.cfg.offset v, 0x400001#24),
        (.readValue 0#32, 0x900000#24, 0x000000#24),
        (.readControlRegister 0#32, 0xA00000#24, 0x000000#24)] →
      (∀ w, i = .setValue w → s.cfg.ldacPin = none) →
      exec i s = .next { afterDraws (4 + n) s with
        trace := s.trace ++ frameEvents s.cfg f i2 i1 i0
          ++ cutFrameEvents s.cfg g (upcoming n (afterDraws 4 s))
        terr := some e, lastCause := .transport, status := s.status ||| 0b1000#4
        responses := s.responses ++ [⟨.transport, none, s.status ||| 0b1000#4⟩] }

/-- Whatever an instruction does, it makes at most eight fallible calls, one after another, and ends at the first error
(60_exceptions R194 (a), (c), (d), R199; the bound of eight is that of two frames, 40_codec R115 to R117 and the
command bodies): either every answer it took was good and it did not fail on the transport, or the last answer was the
one error, which stands in `TERR`. For a wire frame the failed end is the model's choice: log entry 5. -/
def Obligations.CommandsStopAtTheFirstTransportError : Prop :=
  ∀ (i : Instr) (s t : State), exec i s = .next t →
    ∃ n, n ≤ 8 ∧ t.answers = (afterDraws n s).answers ∧ t.draws = (afterDraws n s).draws ∧
      (((upcoming n s).all replyOk = true ∧ t.terr = s.terr ∧ t.status.getLsbD 3 = s.status.getLsbD 3) ∨
       (∃ e, endsAtFirstError (upcoming n s) e ∧ t.terr = some e ∧ t.lastCause = .transport ∧
         t.status = s.status ||| 0b1000#4 ∧
         t.responses = s.responses ++ [⟨.transport, none, s.status ||| 0b1000#4⟩]))

/-! ### Rules of the whole machine -/

/-- The device mode (10_state R28, 60_exceptions R202): `READY` is never left, and a step that enters it ran a well-formed
`BEGIN` that completed. -/
def Obligations.ReadyIsEnteredByBeginAndNeverLeft : Prop :=
  ∀ s t : State, step s = .next t →
    (s.mode = .ready → t.mode = .ready) ∧
    (s.mode = .unconfigured → t.mode = .ready →
      ∃ opd rest, s.requests = encode (.begin opd) :: rest ∧ (Instr.begin opd).wellFormed = true ∧
        t.lastCause = .none) ∧
    ∀ c, (State.initial c).mode = .unconfigured

/-- The sticky flags (10_state R38, 60_exceptions R191): after a command `LAST_CAUSE` is one of the codes of R191's table, and
`STATUS` is what it was with that code's flag added; no instruction clears a flag; construction clears all. -/
def Obligations.StatusFlagsAreSticky : Prop :=
  (∀ (i : Instr) (s t : State), exec i s = .next t → i.isFrame = false →
    ∃ code flag, causeCode t.lastCause = code ∧ t.status = s.status ||| flag ∧
      (t.lastCause, code, flag) ∈ [
        (Cause.none, 0x0#4, 0b0000#4), (.illegalOpcode, 0x1#4, 0b0001#4), (.illegalOperand, 0x2#4, 0b0010#4),
        (.notReady, 0x3#4, 0b0100#4), (.transport, 0x4#4, 0b1000#4)]) ∧
  (∀ (i : Instr) (s t : State), exec i s = .next t → s.status &&& t.status = s.status) ∧
  (∀ c, (State.initial c).status = 0b0000#4)

/-- One response a command (60_exceptions R196): it carries the cause, `STATUS` after the command, and a result exactly for
a completed read. Its cause has the code that R191 and R199 give: 1 for a reserved opcode, 2 for an ill-formed operand,
3 for a legal command but `BEGIN` in `UNCONFIGURED`, 4 only where the transport answered an error, else 0. -/
def Obligations.EveryCommandReturnsOneResponse : Prop :=
  ∀ (i : Instr) (s t : State), exec i s = .next t → i.isFrame = false →
    ∃ r : Response, t.responses = s.responses ++ [r] ∧ r.cause = t.lastCause ∧ r.status = t.status ∧
      (r.result.isSome = true ↔
        causeCode r.cause = 0x0#4 ∧ ∃ opd, i = .readValue opd ∨ i = .readControlRegister opd) ∧
      (causeCode r.cause = 0x1#4 ↔ i.isReserved = true) ∧
      (causeCode r.cause = 0x2#4 ↔ i.wellFormed = false) ∧
      (causeCode r.cause = 0x3#4 ↔
        i.isReserved = false ∧ i.wellFormed = true ∧ (∀ opd, i ≠ .begin opd) ∧ s.mode = .unconfigured) ∧
      (causeCode r.cause = 0x4#4 → ∃ n e, n ≤ 8 ∧ endsAtFirstError (upcoming n s) e) ∧
      (causeCode r.cause).toNat ≤ 4

/-- `TERR` (10_state R40): construction leaves it `NONE`, only a `TRANSPORT` cause writes it, and a command with that cause
leaves in it, unchanged, the error the transport answered. -/
def Obligations.OnlyTransportCausesWriteTheError : Prop :=
  (∀ c, (State.initial c).terr = none) ∧
  (∀ (i : Instr) (s t : State), exec i s = .next t → t.terr ≠ s.terr → t.lastCause = .transport) ∧
  (∀ (i : Instr) (s t : State), exec i s = .next t → i.isFrame = false → t.lastCause = .transport →
    ∃ n e, endsAtFirstError (upcoming n s) e ∧ t.terr = some e)

/-- The event trace is append-only (10_state R41), and an instruction adds at most fourteen events, `BEGIN` at most five
(70_reset_and_hazards R234, derived there). -/
def Obligations.EveryCommandAppendsFewEvents : Prop :=
  ∀ (i : Instr) (s t : State), exec i s = .next t →
    ∃ evs, t.trace = s.trace ++ evs ∧ evs.length ≤ 14 ∧ (∀ opd, i = .begin opd → evs.length ≤ 5)

/-- The frame of every instruction: the configuration (10_state R20) and the host's other words stay; a mode that is
`READY` stays, and only `BEGIN` changes a mode; the reserved opcodes and the setters with every operand, ill-formed ones
too (60_exceptions R192, R193, 43_control §2), touch no event, no answer, no error and no mode; and nothing but a setter
or a sequence touches the image (10_state R29). -/
def Obligations.InstructionsLeaveTheRestUnchanged : Prop :=
  ∀ (i : Instr) (s t : State), exec i s = .next t →
    t.cfg = s.cfg ∧ t.requests = s.requests ∧
    (s.mode = .ready → t.mode = .ready) ∧
    ((∀ opd, i ≠ .begin opd) → t.mode = s.mode) ∧
    (i.isReserved = true ∨
      (∃ opd, i = .setInternalAmplifier opd ∨ i = .setOutputClamp opd ∨ i = .setTristateMode opd ∨
        i = .setOffsetBinary opd ∨ i = .setReferenceInputRange opd) →
      t.mode = s.mode ∧ t.trace = s.trace ∧ t.answers = s.answers ∧ t.draws = s.draws ∧ t.terr = s.terr) ∧
    (i.isReserved = true ∨ i.isFrame = true ∨
      (∃ opd, i = .begin opd ∨ i = .setValue opd ∨ i = .readValue opd ∨ i = .setClearCode opd ∨
        i = .updateControlRegister opd ∨ i = .readControlRegister opd) →
      t.img = s.img) ∧
    (∀ f opd, i = .enableOutput opd ∨ i = .reset opd → f ≠ .opgnd → f ≠ .dactri →
      fieldRead f t.img = fieldRead f s.img)

/-- Precision (60_exceptions R197, derived there): a command refused with one of the first three causes has no effect
beside `STATUS`, `LAST_CAUSE` and its response. -/
def Obligations.RefusedCommandsAreExact : Prop :=
  ∀ (i : Instr) (s t : State), exec i s = .next t → i.isFrame = false →
    t.lastCause = .illegalOpcode ∨ t.lastCause = .illegalOperand ∨ t.lastCause = .notReady →
    t = { s with status := t.status, lastCause := t.lastCause, responses := t.responses }

/-- Before a `BEGIN` has succeeded no transaction is opened and no byte is exchanged (60_exceptions R202, 41_begin R133). -/
def Obligations.NoFrameLeavesBeforeReady : Prop :=
  ∀ s t : State, step s = .next t → s.mode = .unconfigured →
    ∃ evs, t.trace = s.trace ++ evs ∧
      ∀ e ∈ evs, (∃ p, e = .pinMode p) ∨ (∃ p l, e = .pinWrite p l) ∨ (∃ a, e = .busInit s.cfg.bus a)

/-- The discipline of the bus is kept by every step from a legal image (20_memory R53, R55 to R58, 30_encoding R85 to R87, R96,
60_exceptions R194): each transaction is opened with the fixed parameters, chip-select bounds exactly three exchanged
bytes that make a frame that can leave this block, or the exchange failed and the bus was released; nothing of the
block falls between. So every control-register write carries a legal image, with SDO-disable 0 (70_reset_and_hazards
R223). -/
def Obligations.BusDisciplineIsKept : Prop :=
  ∀ s t : State, cfgAccepted s.cfg = true → imgLegal s.img → busDisciplined s → step s = .next t →
    busDisciplined t ∧ cfgAccepted t.cfg = true ∧ imgLegal t.img

/-- Between commands in `READY` the chip-select rests deasserted and the load-strobe pin rests `LOW` (42_value R141,
70_reset_and_hazards R229; decision D20), whatever failed before. -/
def Obligations.PinsRestBetweenCommands : Prop :=
  ∀ s t : State, cfgAccepted s.cfg = true → pinsAtRest s → step s = .next t → pinsAtRest t

/-! ### The block with the reference responder -/

/-- A completed `SET_VALUE` puts the scaled value into the responder's input latch and its output latch, on both commit
paths (20_memory R74 to R76; decision D24), whatever state the responder was in. The responder's bookkeeping is log
entry 16. -/
def Obligations.CommittedValueReachesTheOutput : Prop :=
  ∀ (s t : State) (v : Word) (r : Responder),
    cfgAccepted s.cfg = true → s.mode = .ready → exec (.setValue v) s = .next t → t.lastCause = .none →
    ∃ evs, t.trace = s.trace ++ evs ∧
      (responderAfter s.cfg evs r).dacReg = scaleValue s.cfg.offset v ∧
      (responderAfter s.cfg evs r).outReg = scaleValue s.cfg.offset v

/-- With the responder on the bus, a `SET_VALUE` and then a `READ_VALUE` give back the value's low `VALUE_BITS` bits and the
echo 0x9 (20_memory R75; decision D24). The responder's bookkeeping is log entry 16. -/
def Obligations.SetValueThenReadValueReturnsIt : Prop :=
  ∀ (s t u : State) (v : Word) (r : Responder) (evs : List Event) (rest : List BusReply),
    cfgAccepted s.cfg = true → s.mode = .ready →
    exec (.setValue v) s = .next t → t.lastCause = .none → t.trace = s.trace ++ evs →
    t.answers = responderAnswers [0x900000#24, 0x000000#24] (responderAfter s.cfg evs r) ++ rest →
    exec (.readValue 0#32) t = .next u →
    u.lastCause = .none ∧
    u.responses = t.responses ++ [⟨.none, some (v &&& valueMask s.cfg.offset, 0x9#4), u.status⟩]

/-- The stale image (70_reset_and_hazards R220, R224; 10_state R45): with the responder on the bus, `READ_CONTROL_REGISTER`
returns the responder's control register whatever the image holds, and after a completed `UPDATE_CONTROL_REGISTER` that
register is the image's payload. The responder's bookkeeping is log entry 16. -/
def Obligations.ControlReadFollowsTheLastWriteBack : Prop :=
  (∀ (s u : State) (r : Responder) (rest : List BusReply),
    s.mode = .ready →
    s.answers = responderAnswers [0xA00000#24, 0x000000#24] r ++ rest →
    exec (.readControlRegister 0#32) s = .next u →
    u.img = s.img ∧ u.responses = s.responses ++ [⟨.none, some (r.ctrlReg.setWidth 32, 0xA#4), u.status⟩]) ∧
  (∀ (s t : State) (r : Responder),
    cfgAccepted s.cfg = true → s.mode = .ready →
    exec (.updateControlRegister 0#32) s = .next t → t.lastCause = .none →
    ∃ evs, t.trace = s.trace ++ evs ∧
      responderAfter s.cfg evs r
        = { r with ctrlReg := s.img.extractLsb' 0 20, sdoNext := 0#24 })

/-! ### The assembler -/

/-- The assembler (30_encoding R100), row by row of R90's table: the word of a command without an operand, of a BOOL command for
each of `0`, `1`, `false`, `true`, and of a VALUE command for every literal up to `2^32-1`, is its opcode and its operand side
by side. A missing or an extra operand, a wrong or an out-of-range literal and an unknown mnemonic are refused. So what
is accepted is a well-formed command, and every well-formed command is some line's word. How a line is cut into
tokens, and that a hexadecimal token is no BOOL operand, is log entry 17. -/
def Obligations.AssemblerWritesTheLegalCommands : Prop :=
  let noneRows := [("READ_VALUE", 0x2#4), ("UPDATE_CONTROL_REGISTER", 0x9#4), ("ENABLE_OUTPUT", 0xA#4),
    ("READ_CONTROL_REGISTER", 0xB#4), ("RESET", 0xC#4)]
  let boolRows := [("BEGIN", 0x0#4), ("SET_INTERNAL_AMPLIFIER", 0x4#4), ("SET_OUTPUT_CLAMP", 0x5#4),
    ("SET_TRISTATE_MODE", 0x6#4), ("SET_OFFSET_BINARY", 0x7#4), ("SET_REFERENCE_INPUT_RANGE", 0x8#4)]
  let valueRows := [("SET_VALUE", 0x1#4), ("SET_CLEAR_CODE", 0x3#4)]
  (∀ m opc, (m, opc) ∈ noneRows →
    assemble ⟨m, []⟩ = some (opc ++ 0#32) ∧ ∀ ops, ops ≠ [] → assemble ⟨m, ops⟩ = none) ∧
  (∀ m opc, (m, opc) ∈ boolRows →
    assemble ⟨m, [.decimal 0]⟩ = some (opc ++ 0#32) ∧ assemble ⟨m, [.wordFalse]⟩ = some (opc ++ 0#32) ∧
    assemble ⟨m, [.decimal 1]⟩ = some (opc ++ 1#32) ∧ assemble ⟨m, [.wordTrue]⟩ = some (opc ++ 1#32) ∧
    ∀ ops, ops ∉ [[.decimal 0], [.decimal 1], [.wordFalse], [.wordTrue]] → assemble ⟨m, ops⟩ = none) ∧
  (∀ m opc, (m, opc) ∈ valueRows →
    (∀ n, n < 2 ^ 32 →
      assemble ⟨m, [.decimal n]⟩ = some (opc ++ BitVec.ofNat 32 n) ∧
      assemble ⟨m, [.hex n]⟩ = some (opc ++ BitVec.ofNat 32 n)) ∧
    ∀ ops, (∀ n, n < 2 ^ 32 → ops ≠ [.decimal n] ∧ ops ≠ [.hex n]) → assemble ⟨m, ops⟩ = none) ∧
  (∀ m ops, m ∉ (noneRows ++ boolRows ++ valueRows).map (·.1) → assemble ⟨m, ops⟩ = none) ∧
  (∀ line cw, assemble line = some cw →
    (decodeHost cw).isHostCommand = true ∧ (decodeHost cw).wellFormed = true) ∧
  (∀ i : Instr, i.isHostCommand = true → i.wellFormed = true →
    ∃ line cw, assemble line = some cw ∧ encode i = .host cw)
end

