-- ==== Sys2Proof/Laws/Decode.lean ====
section
/-! SUPPORT. The words of both encodings as their parts side by side, and the parts read back. -/

namespace Sys2Proof

@[simp] theorem hostOpcode_append (opc : BitVec 4) (opd : Word) : hostOpcode (opc ++ opd) = opc := by
  simp only [hostOpcode, BitVec.extractLsb'_append_eq_left]

@[simp] theorem hostOperand_append (opc : BitVec 4) (opd : Word) : hostOperand (opc ++ opd) = opd := by
  simp only [hostOperand, BitVec.extractLsb'_append_eq_right]

@[simp] theorem frameHead_append (h : BitVec 4) (p : Payload) : frameHead (h ++ p) = h := by
  simp only [frameHead, BitVec.extractLsb'_append_eq_left]

@[simp] theorem framePayload_append (h : BitVec 4) (p : Payload) : framePayload (h ++ p) = p := by
  simp only [framePayload, BitVec.extractLsb'_append_eq_right]

/-- A host word is its opcode and its operand. -/
theorem hostWord_parts (cw : HostWord) : hostOpcode cw ++ hostOperand cw = cw := by
  apply BitVec.eq_of_getLsbD_eq; intro i hi
  simp only [hostOpcode, hostOperand, BitVec.getLsbD_append, BitVec.getLsbD_extractLsb']
  interval_cases i <;> simp

/-- A frame is its head and its payload. -/
theorem frame_parts (f : Frame) : frameHead f ++ framePayload f = f := by
  apply BitVec.eq_of_getLsbD_eq; intro i hi
  simp only [frameHead, framePayload, BitVec.getLsbD_append, BitVec.getLsbD_extractLsb']
  interval_cases i <;> simp

/-- The frames with a free payload are decoded by their head. -/
theorem decodeWire_write (p : Payload) :
    decodeWire (0x1#4 ++ p) = .ok (.frameWrDac p) ∧ decodeWire (0x2#4 ++ p) = .ok (.frameWrCtrl p) ∧
    decodeWire (0x3#4 ++ p) = .ok (.frameWrClr p) := by
  refine ⟨?_, ?_, ?_⟩ <;> simp [decodeWire]

/-- Where a table word decodes, it is a word of the machine. -/
theorem decodeTableWord_eq_some {nbits w : Nat} {i : Instr} (h : decodeTableWord nbits w = some i) :
    decode (tableWord nbits w) = .ok i := by
  unfold decodeTableWord at h
  by_cases hw : w < 2 ^ (if nbits ≤ 24 then 24 else 36)
  · rw [if_pos hw] at h
    cases hd : decode (tableWord nbits w) with
    | ok j => rw [hd] at h; simp only [Option.some.injEq] at h; rw [h]
    | error e => rw [hd] at h; cases h
  · rw [if_neg hw] at h; cases h

end Sys2Proof
end

