-- ==== Sys2Proof/Laws/Codec.lean ====
section
/-! SUPPORT. The codec and the field manager on the values the commands give them: frames as their parts side by side, field
writes of the legal values as a mask set or cleared, operands as booleans. -/

namespace Sys2Proof.Machine

/-- A frame with a twenty-bit payload: nothing is masked away. -/
theorem encodeFrame_payload (d : Dir) (a : BitVec 3) (p : Payload) :
    encodeFrame d a (p.setWidth 32) = dirBit d ++ a ++ p := by
  apply BitVec.eq_of_getLsbD_eq
  intro i hi
  simp only [encodeFrame, BitVec.getLsbD_or, BitVec.getLsbD_shiftLeft, BitVec.getLsbD_setWidth, BitVec.getLsbD_append,
    BitVec.getLsbD_and]
  interval_cases i <;> simp [BitVec.getLsbD_of_ge]

/-- The frame of an image: its low twenty bits (30_encoding R87). -/
theorem encodeFrame_word (d : Dir) (a : BitVec 3) (w : Word) :
    encodeFrame d a w = encodeFrame d a ((w.extractLsb' 0 20).setWidth 32) := by
  apply BitVec.eq_of_getLsbD_eq
  intro i hi
  simp only [encodeFrame, BitVec.getLsbD_or, BitVec.getLsbD_shiftLeft, BitVec.getLsbD_setWidth, BitVec.getLsbD_and,
    BitVec.getLsbD_extractLsb']
  interval_cases i <;> simp

/-- The head of a write frame, by register (30_encoding R83). -/
theorem writeHead (a : Reg) (p : Payload) :
    dirBit .write ++ regAddr a ++ p = (match a with
      | .nop => 0x0#4 | .dac => 0x1#4 | .ctrl => 0x2#4 | .clr => 0x3#4 | .swctrl => 0x4#4) ++ p := by
  cases a <;> rfl

theorem encode_dac_write (p : Payload) : encodeFrame .write (regAddr .dac) (p.setWidth 32) = 0x1#4 ++ p := by
  rw [encodeFrame_payload, writeHead]

theorem encode_ctrl_write (p : Payload) : encodeFrame .write (regAddr .ctrl) (p.setWidth 32) = 0x2#4 ++ p := by
  rw [encodeFrame_payload, writeHead]

theorem encode_clr_write (p : Payload) : encodeFrame .write (regAddr .clr) (p.setWidth 32) = 0x3#4 ++ p := by
  rw [encodeFrame_payload, writeHead]

theorem encode_image_write (img : Word) :
    encodeFrame .write (regAddr .ctrl) img = 0x2#4 ++ img.extractLsb' 0 20 := by
  rw [encodeFrame_word, encode_ctrl_write]

theorem encode_load_frame : encodeFrame .write (regAddr .swctrl) loadDacPayload = 0x400001#24 := by decide

theorem encode_dac_read : encodeFrame .read (regAddr .dac) 0#32 = 0x900000#24 := by decide

theorem encode_ctrl_read : encodeFrame .read (regAddr .ctrl) 0#32 = 0xA00000#24 := by decide

theorem encode_nop : encodeFrame .write (regAddr .nop) 0#32 = 0x000000#24 := by decide

/-! The field manager, bit by bit. -/

/-- A bit of a field's mask. -/
theorem fieldMask_getLsbD (f : Field) (i : Nat) :
    (fieldMask f).getLsbD i = (decide (fieldPos f ≤ i) && decide (i < fieldPos f + fieldWidth f)) := by
  by_cases hi : i < 32
  · cases f <;> simp only [fieldMask, fieldPos, fieldWidth] <;> interval_cases i <;> rfl
  · have hf : ¬ i < fieldPos f + fieldWidth f := by cases f <;> simp only [fieldPos, fieldWidth] <;> omega
    rw [BitVec.getLsbD_of_ge _ _ (by omega)]
    simp [hf]

/-- A bit of a written image: the value's inside the field, the old one outside. -/
theorem fieldWrite_getLsbD (f : Field) (val : BitVec 4) (img : Word) (i : Nat) (hi : i < 32) :
    (fieldWrite f val img).getLsbD i
      = if fieldPos f ≤ i ∧ i < fieldPos f + fieldWidth f then val.getLsbD (i - fieldPos f) else img.getLsbD i := by
  simp only [fieldWrite, BitVec.getLsbD_or, BitVec.getLsbD_and, BitVec.getLsbD_not, fieldMask_getLsbD,
    BitVec.getLsbD_shiftLeft, BitVec.getLsbD_setWidth]
  split <;> rename_i h
  · have h1 : ¬ i < fieldPos f := by omega
    have h2 : i - fieldPos f < 32 := by omega
    simp [h.1, h.2, hi, h1, h2]
  · by_cases h1 : fieldPos f ≤ i
    · have h2 : ¬ i < fieldPos f + fieldWidth f := fun h2 => h ⟨h1, h2⟩
      simp [h2, hi]
    · simp [h1, hi]

/-- A bit of a field. -/
theorem fieldRead_getLsbD (f : Field) (img : Word) (k : Nat) :
    (fieldRead f img).getLsbD k = (decide (k < fieldWidth f) && img.getLsbD (fieldPos f + k)) := by
  simp only [fieldRead, BitVec.getLsbD_setWidth, BitVec.getLsbD_ushiftRight, BitVec.getLsbD_and, fieldMask_getLsbD]
  have hw : fieldWidth f ≤ 4 := by cases f <;> decide
  by_cases hk : k < fieldWidth f
  · have h4 : k < 4 := by omega
    simp [hk, h4]
  · simp [hk]

/-! Field writes of the values the commands write. -/

theorem fieldWrite_bit (f : Field) (hf : f ≠ .lincomp) (b : Bool) (img : Word) :
    fieldWrite f (fieldBit b) img = if b then img ||| fieldMask f else img &&& ~~~ fieldMask f := by
  cases f <;> first | exact absurd rfl hf | skip
  all_goals
    cases b <;> simp only [fieldBit, fieldWrite, fieldMask, fieldPos, Bool.false_eq_true, if_true, if_false] <;>
    · apply BitVec.eq_of_getLsbD_eq
      intro i hi
      simp only [BitVec.getLsbD_or, BitVec.getLsbD_and, BitVec.getLsbD_not, BitVec.getLsbD_shiftLeft,
        BitVec.getLsbD_setWidth]
      interval_cases i <;> simp

theorem fieldWrite_range (b : Bool) (img : Word) :
    fieldWrite .lincomp (rangeCode b) img
      = if b then (img &&& ~~~0x3C0#32) ||| 0x300#32 else img &&& ~~~0x3C0#32 := by
  cases b <;> simp [rangeCode, fieldWrite, fieldMask, fieldPos]

theorem fieldWrite_sequence (img : Word) :
    fieldWrite .dactri 0b0000#4 (fieldWrite .opgnd 0b0000#4 img) = img &&& ~~~0x00C#32 := by
  rw [show (0b0000#4) = fieldBit false from rfl, fieldWrite_bit _ (by decide), fieldWrite_bit _ (by decide)]
  simp only [Bool.false_eq_true, if_false, fieldMask, BitVec.and_assoc]
  rfl

/-! Operands. -/

@[simp] theorem operandLegal_bool (b : Bool) : operandLegal .bool (boolOperand b) = true := by cases b <;> decide

@[simp] theorem operandBool_boolOperand (b : Bool) : operandBool (boolOperand b) = b := by cases b <;> decide

/-- The two ways of saying R91's BOOL check agree: `OPD[31:1]` is zero where the operand is 0 or 1. -/
theorem operandLegal_bool_iff (opd : Word) : operandLegal .bool opd = boolOperandOk opd := by
  have h : opd.extractLsb' 1 31 = 0#31 ↔ opd = 0#32 ∨ opd = 1#32 := by
    rw [← BitVec.toNat_inj, ← BitVec.toNat_inj, ← BitVec.toNat_inj]
    simp only [BitVec.extractLsb'_toNat, BitVec.toNat_ofNat]
    have := opd.isLt
    omega
  rw [Bool.eq_iff_iff]
  simp [operandLegal, boolOperandOk, h]

theorem operandLegal_none_iff (opd : Word) : operandLegal .none opd = noneOperandOk opd := rfl

/-- A legal BOOL operand is its boolean. -/
theorem operandBool_eq {opd : Word} (h : boolOperandOk opd = true) : operandBool opd = !(opd == 0#32) := by
  simp only [boolOperandOk, Bool.or_eq_true, beq_iff_eq] at h
  rcases h with rfl | rfl <;> decide

end Sys2Proof.Machine
end

