-- ==== Sys2Proof/Laws/State.lean ====
section
/-! SUPPORT. What each update of the state does to each field, one lemma a field, so that no proof unfolds a record
update. -/

namespace Sys2Proof.Machine

/-! `emit` -/

@[simp] theorem emit_cfg (e : Event) (s : State) :
    (emit e s).cfg = s.cfg := rfl
@[simp] theorem emit_mode (e : Event) (s : State) :
    (emit e s).mode = s.mode := rfl
@[simp] theorem emit_img (e : Event) (s : State) :
    (emit e s).img = s.img := rfl
@[simp] theorem emit_status (e : Event) (s : State) :
    (emit e s).status = s.status := rfl
@[simp] theorem emit_lastCause (e : Event) (s : State) :
    (emit e s).lastCause = s.lastCause := rfl
@[simp] theorem emit_terr (e : Event) (s : State) :
    (emit e s).terr = s.terr := rfl
@[simp] theorem emit_trace (e : Event) (s : State) :
    (emit e s).trace = s.trace ++ [e] := rfl
@[simp] theorem emit_requests (e : Event) (s : State) :
    (emit e s).requests = s.requests := rfl
@[simp] theorem emit_answers (e : Event) (s : State) :
    (emit e s).answers = s.answers := rfl
@[simp] theorem emit_draws (e : Event) (s : State) :
    (emit e s).draws = s.draws := rfl
@[simp] theorem emit_responses (e : Event) (s : State) :
    (emit e s).responses = s.responses := rfl

/-! `pinMode` -/

@[simp] theorem pinMode_cfg (p : PinId) (s : State) :
    (pinMode p s).cfg = s.cfg := rfl
@[simp] theorem pinMode_mode (p : PinId) (s : State) :
    (pinMode p s).mode = s.mode := rfl
@[simp] theorem pinMode_img (p : PinId) (s : State) :
    (pinMode p s).img = s.img := rfl
@[simp] theorem pinMode_status (p : PinId) (s : State) :
    (pinMode p s).status = s.status := rfl
@[simp] theorem pinMode_lastCause (p : PinId) (s : State) :
    (pinMode p s).lastCause = s.lastCause := rfl
@[simp] theorem pinMode_terr (p : PinId) (s : State) :
    (pinMode p s).terr = s.terr := rfl
@[simp] theorem pinMode_trace (p : PinId) (s : State) :
    (pinMode p s).trace = s.trace ++ [.pinMode p] := rfl
@[simp] theorem pinMode_requests (p : PinId) (s : State) :
    (pinMode p s).requests = s.requests := rfl
@[simp] theorem pinMode_answers (p : PinId) (s : State) :
    (pinMode p s).answers = s.answers := rfl
@[simp] theorem pinMode_draws (p : PinId) (s : State) :
    (pinMode p s).draws = s.draws := rfl
@[simp] theorem pinMode_responses (p : PinId) (s : State) :
    (pinMode p s).responses = s.responses := rfl

/-! `pinWrite` -/

@[simp] theorem pinWrite_cfg (p : PinId) (l : Level) (s : State) :
    (pinWrite p l s).cfg = s.cfg := rfl
@[simp] theorem pinWrite_mode (p : PinId) (l : Level) (s : State) :
    (pinWrite p l s).mode = s.mode := rfl
@[simp] theorem pinWrite_img (p : PinId) (l : Level) (s : State) :
    (pinWrite p l s).img = s.img := rfl
@[simp] theorem pinWrite_status (p : PinId) (l : Level) (s : State) :
    (pinWrite p l s).status = s.status := rfl
@[simp] theorem pinWrite_lastCause (p : PinId) (l : Level) (s : State) :
    (pinWrite p l s).lastCause = s.lastCause := rfl
@[simp] theorem pinWrite_terr (p : PinId) (l : Level) (s : State) :
    (pinWrite p l s).terr = s.terr := rfl
@[simp] theorem pinWrite_trace (p : PinId) (l : Level) (s : State) :
    (pinWrite p l s).trace = s.trace ++ [.pinWrite p l] := rfl
@[simp] theorem pinWrite_requests (p : PinId) (l : Level) (s : State) :
    (pinWrite p l s).requests = s.requests := rfl
@[simp] theorem pinWrite_answers (p : PinId) (l : Level) (s : State) :
    (pinWrite p l s).answers = s.answers := rfl
@[simp] theorem pinWrite_draws (p : PinId) (l : Level) (s : State) :
    (pinWrite p l s).draws = s.draws := rfl
@[simp] theorem pinWrite_responses (p : PinId) (l : Level) (s : State) :
    (pinWrite p l s).responses = s.responses := rfl

/-! `pinPulse` -/

@[simp] theorem pinPulse_cfg (p : PinId) (s : State) :
    (pinPulse p s).cfg = s.cfg := rfl
@[simp] theorem pinPulse_mode (p : PinId) (s : State) :
    (pinPulse p s).mode = s.mode := rfl
@[simp] theorem pinPulse_img (p : PinId) (s : State) :
    (pinPulse p s).img = s.img := rfl
@[simp] theorem pinPulse_status (p : PinId) (s : State) :
    (pinPulse p s).status = s.status := rfl
@[simp] theorem pinPulse_lastCause (p : PinId) (s : State) :
    (pinPulse p s).lastCause = s.lastCause := rfl
@[simp] theorem pinPulse_terr (p : PinId) (s : State) :
    (pinPulse p s).terr = s.terr := rfl
@[simp] theorem pinPulse_trace (p : PinId) (s : State) :
    (pinPulse p s).trace = s.trace ++ [.pinWrite p .high] ++ [.pinWrite p .low] := rfl
@[simp] theorem pinPulse_requests (p : PinId) (s : State) :
    (pinPulse p s).requests = s.requests := rfl
@[simp] theorem pinPulse_answers (p : PinId) (s : State) :
    (pinPulse p s).answers = s.answers := rfl
@[simp] theorem pinPulse_draws (p : PinId) (s : State) :
    (pinPulse p s).draws = s.draws := rfl
@[simp] theorem pinPulse_responses (p : PinId) (s : State) :
    (pinPulse p s).responses = s.responses := rfl

/-! `releaseBus` -/

@[simp] theorem releaseBus_cfg (s : State) :
    (releaseBus s).cfg = s.cfg := rfl
@[simp] theorem releaseBus_mode (s : State) :
    (releaseBus s).mode = s.mode := rfl
@[simp] theorem releaseBus_img (s : State) :
    (releaseBus s).img = s.img := rfl
@[simp] theorem releaseBus_status (s : State) :
    (releaseBus s).status = s.status := rfl
@[simp] theorem releaseBus_lastCause (s : State) :
    (releaseBus s).lastCause = s.lastCause := rfl
@[simp] theorem releaseBus_terr (s : State) :
    (releaseBus s).terr = s.terr := rfl
@[simp] theorem releaseBus_trace (s : State) :
    (releaseBus s).trace = s.trace ++ [.pinWrite s.cfg.csPin (csDeassert s.cfg)] ++ [.txnEnd s.cfg.bus] := rfl
@[simp] theorem releaseBus_requests (s : State) :
    (releaseBus s).requests = s.requests := rfl
@[simp] theorem releaseBus_answers (s : State) :
    (releaseBus s).answers = s.answers := rfl
@[simp] theorem releaseBus_draws (s : State) :
    (releaseBus s).draws = s.draws := rfl
@[simp] theorem releaseBus_responses (s : State) :
    (releaseBus s).responses = s.responses := rfl

/-! `writeField` -/

@[simp] theorem writeField_cfg (f : Field) (v : BitVec 4) (s : State) :
    (writeField f v s).cfg = s.cfg := rfl
@[simp] theorem writeField_mode (f : Field) (v : BitVec 4) (s : State) :
    (writeField f v s).mode = s.mode := rfl
@[simp] theorem writeField_img (f : Field) (v : BitVec 4) (s : State) :
    (writeField f v s).img = fieldWrite f v s.img := rfl
@[simp] theorem writeField_status (f : Field) (v : BitVec 4) (s : State) :
    (writeField f v s).status = s.status := rfl
@[simp] theorem writeField_lastCause (f : Field) (v : BitVec 4) (s : State) :
    (writeField f v s).lastCause = s.lastCause := rfl
@[simp] theorem writeField_terr (f : Field) (v : BitVec 4) (s : State) :
    (writeField f v s).terr = s.terr := rfl
@[simp] theorem writeField_trace (f : Field) (v : BitVec 4) (s : State) :
    (writeField f v s).trace = s.trace := rfl
@[simp] theorem writeField_requests (f : Field) (v : BitVec 4) (s : State) :
    (writeField f v s).requests = s.requests := rfl
@[simp] theorem writeField_answers (f : Field) (v : BitVec 4) (s : State) :
    (writeField f v s).answers = s.answers := rfl
@[simp] theorem writeField_draws (f : Field) (v : BitVec 4) (s : State) :
    (writeField f v s).draws = s.draws := rfl
@[simp] theorem writeField_responses (f : Field) (v : BitVec 4) (s : State) :
    (writeField f v s).responses = s.responses := rfl

/-! `fail` -/

@[simp] theorem fail_cfg (c : Cause) (s : State) :
    (fail c s).cfg = s.cfg := rfl
@[simp] theorem fail_mode (c : Cause) (s : State) :
    (fail c s).mode = s.mode := rfl
@[simp] theorem fail_img (c : Cause) (s : State) :
    (fail c s).img = s.img := rfl
@[simp] theorem fail_status (c : Cause) (s : State) :
    (fail c s).status = raiseFlag c s.status := rfl
@[simp] theorem fail_lastCause (c : Cause) (s : State) :
    (fail c s).lastCause = c := rfl
@[simp] theorem fail_terr (c : Cause) (s : State) :
    (fail c s).terr = s.terr := rfl
@[simp] theorem fail_trace (c : Cause) (s : State) :
    (fail c s).trace = s.trace := rfl
@[simp] theorem fail_requests (c : Cause) (s : State) :
    (fail c s).requests = s.requests := rfl
@[simp] theorem fail_answers (c : Cause) (s : State) :
    (fail c s).answers = s.answers := rfl
@[simp] theorem fail_draws (c : Cause) (s : State) :
    (fail c s).draws = s.draws := rfl
@[simp] theorem fail_responses (c : Cause) (s : State) :
    (fail c s).responses = s.responses ++ [⟨c, none, raiseFlag c s.status⟩] := rfl

/-! `failTransport` -/

@[simp] theorem failTransport_cfg (e : TransportError) (s : State) :
    (failTransport e s).cfg = s.cfg := rfl
@[simp] theorem failTransport_mode (e : TransportError) (s : State) :
    (failTransport e s).mode = s.mode := rfl
@[simp] theorem failTransport_img (e : TransportError) (s : State) :
    (failTransport e s).img = s.img := rfl
@[simp] theorem failTransport_status (e : TransportError) (s : State) :
    (failTransport e s).status = raiseFlag .transport s.status := rfl
@[simp] theorem failTransport_lastCause (e : TransportError) (s : State) :
    (failTransport e s).lastCause = .transport := rfl
@[simp] theorem failTransport_terr (e : TransportError) (s : State) :
    (failTransport e s).terr = some e := rfl
@[simp] theorem failTransport_trace (e : TransportError) (s : State) :
    (failTransport e s).trace = s.trace := rfl
@[simp] theorem failTransport_requests (e : TransportError) (s : State) :
    (failTransport e s).requests = s.requests := rfl
@[simp] theorem failTransport_answers (e : TransportError) (s : State) :
    (failTransport e s).answers = s.answers := rfl
@[simp] theorem failTransport_draws (e : TransportError) (s : State) :
    (failTransport e s).draws = s.draws := rfl
@[simp] theorem failTransport_responses (e : TransportError) (s : State) :
    (failTransport e s).responses = s.responses ++ [⟨.transport, none, raiseFlag .transport s.status⟩] := rfl

/-! `complete` -/

@[simp] theorem complete_cfg (r : Option (Word × BitVec 4)) (s : State) :
    (complete r s).cfg = s.cfg := rfl
@[simp] theorem complete_mode (r : Option (Word × BitVec 4)) (s : State) :
    (complete r s).mode = s.mode := rfl
@[simp] theorem complete_img (r : Option (Word × BitVec 4)) (s : State) :
    (complete r s).img = s.img := rfl
@[simp] theorem complete_status (r : Option (Word × BitVec 4)) (s : State) :
    (complete r s).status = s.status := rfl
@[simp] theorem complete_lastCause (r : Option (Word × BitVec 4)) (s : State) :
    (complete r s).lastCause = .none := rfl
@[simp] theorem complete_terr (r : Option (Word × BitVec 4)) (s : State) :
    (complete r s).terr = s.terr := rfl
@[simp] theorem complete_trace (r : Option (Word × BitVec 4)) (s : State) :
    (complete r s).trace = s.trace := rfl
@[simp] theorem complete_requests (r : Option (Word × BitVec 4)) (s : State) :
    (complete r s).requests = s.requests := rfl
@[simp] theorem complete_answers (r : Option (Word × BitVec 4)) (s : State) :
    (complete r s).answers = s.answers := rfl
@[simp] theorem complete_draws (r : Option (Word × BitVec 4)) (s : State) :
    (complete r s).draws = s.draws := rfl
@[simp] theorem complete_responses (r : Option (Word × BitVec 4)) (s : State) :
    (complete r s).responses = s.responses ++ [⟨.none, r, s.status⟩] := rfl

/-! `draw`: the only fields a call's answer moves are the coming answers and their count. -/

/-- The answers that are left once one was taken. -/
@[simp] theorem draw_answers (s : State) : (draw s).2.answers = s.answers.tail := by
  unfold draw; split <;> simp_all

@[simp] theorem draw_draws (s : State) : (draw s).2.draws = s.draws + 1 := by
  unfold draw; split <;> rfl

@[simp] theorem draw_cfg (s : State) : (draw s).2.cfg = s.cfg := by
  unfold draw; split <;> rfl

@[simp] theorem draw_mode (s : State) : (draw s).2.mode = s.mode := by
  unfold draw; split <;> rfl

@[simp] theorem draw_img (s : State) : (draw s).2.img = s.img := by
  unfold draw; split <;> rfl

@[simp] theorem draw_status (s : State) : (draw s).2.status = s.status := by
  unfold draw; split <;> rfl

@[simp] theorem draw_lastCause (s : State) : (draw s).2.lastCause = s.lastCause := by
  unfold draw; split <;> rfl

@[simp] theorem draw_terr (s : State) : (draw s).2.terr = s.terr := by
  unfold draw; split <;> rfl

@[simp] theorem draw_trace (s : State) : (draw s).2.trace = s.trace := by
  unfold draw; split <;> rfl

@[simp] theorem draw_requests (s : State) : (draw s).2.requests = s.requests := by
  unfold draw; split <;> rfl

@[simp] theorem draw_responses (s : State) : (draw s).2.responses = s.responses := by
  unfold draw; split <;> rfl

/-- All of `draw`'s effect on the state. -/
theorem draw_snd (s : State) : (draw s).2 = { s with answers := s.answers.tail, draws := s.draws + 1 } := by
  unfold draw; split <;> simp_all

/-- The answer depends on the coming answers and their count alone. -/
theorem draw_fst_congr {s t : State} (ha : s.answers = t.answers) (hd : s.draws = t.draws) :
    (draw s).1 = (draw t).1 := by
  unfold draw; rw [ha, hd]; split <;> rfl

/-! `State.initial` and `construct` -/

@[simp] theorem initial_cfg (c : Cfg) : (State.initial c).cfg = c := rfl
@[simp] theorem initial_mode (c : Cfg) : (State.initial c).mode = .unconfigured := rfl
@[simp] theorem initial_img (c : Cfg) : (State.initial c).img = 0x0000001E#32 := rfl
@[simp] theorem initial_status (c : Cfg) : (State.initial c).status = 0b0000#4 := rfl
@[simp] theorem initial_lastCause (c : Cfg) : (State.initial c).lastCause = .none := rfl
@[simp] theorem initial_terr (c : Cfg) : (State.initial c).terr = none := rfl
@[simp] theorem initial_trace (c : Cfg) : (State.initial c).trace = [] := rfl
@[simp] theorem initial_requests (c : Cfg) : (State.initial c).requests = [] := rfl
@[simp] theorem initial_answers (c : Cfg) : (State.initial c).answers = [] := rfl
@[simp] theorem initial_draws (c : Cfg) : (State.initial c).draws = 0 := rfl
@[simp] theorem initial_responses (c : Cfg) : (State.initial c).responses = [] := rfl

theorem construct_eq_some {c : Cfg} {s : State} (h : construct c = some s) :
    cfgAccepted c = true ∧ s = State.initial c := by
  unfold construct at h
  split at h
  · exact ⟨‹_›, (Option.some.inj h).symm⟩
  · cases h

end Sys2Proof.Machine
end

