-- ==== Sys2Proof/Laws/Draws.lean ====
section
/-! SUPPORT. The transport's coming answers: taking `n` of them moves two fields, and which they are depends on those two
fields alone. -/

namespace Sys2Proof.Machine

theorem afterDraws_eq (n : Nat) (s : State) :
    afterDraws n s = { s with answers := s.answers.drop n, draws := s.draws + n } := by
  induction n generalizing s with
  | zero => rfl
  | succ n ih => simp [afterDraws, ih, draw_snd, List.drop_tail]; omega

@[simp] theorem upcoming_length (n : Nat) (s : State) : (upcoming n s).length = n := by
  induction n generalizing s with
  | zero => rfl
  | succ n ih => simp [upcoming, ih]

/-- The coming answers depend on `answers` and `draws` alone. -/
theorem upcoming_congr (n : Nat) {s t : State} (ha : s.answers = t.answers) (hd : s.draws = t.draws) :
    upcoming n s = upcoming n t := by
  induction n generalizing s t with
  | zero => rfl
  | succ n ih =>
    simp only [upcoming, draw_fst_congr ha hd, List.cons.injEq, true_and]
    exact ih (by simp [ha]) (by simp [hd])

theorem upcoming_add (m n : Nat) (s : State) :
    upcoming (m + n) s = upcoming m s ++ upcoming n (afterDraws m s) := by
  induction m generalizing s with
  | zero => simp [upcoming, afterDraws]
  | succ m ih => simp [Nat.succ_add, upcoming, afterDraws, ih]

theorem afterDraws_add (m n : Nat) (s : State) : afterDraws (m + n) s = afterDraws n (afterDraws m s) := by
  induction m generalizing s with
  | zero => simp [afterDraws]
  | succ m ih => simp [Nat.succ_add, afterDraws, ih]

/-- Answers that are listed come first. -/
theorem upcoming_of_answers {s : State} {rs rest : List BusReply} (h : s.answers = rs ++ rest) :
    upcoming rs.length s = rs := by
  induction rs generalizing s with
  | nil => rfl
  | cons r rs ih =>
    have hd : (draw s).1 = r := by unfold draw; rw [h]; rfl
    simp only [List.length_cons, upcoming, hd]
    rw [ih (by simp [h])]

/-- A run of coming answers is all good up to `n`, or ends at a first error within `n`. -/
theorem upcoming_ok_or_error (n : Nat) (s : State) :
    (upcoming n s).all replyOk = true ∨ ∃ k e, 1 ≤ k ∧ k ≤ n ∧ endsAtFirstError (upcoming k s) e := by
  induction n with
  | zero => exact .inl rfl
  | succ n ih =>
    rcases ih with h | ⟨k, e, h1, h2, h3⟩
    · rw [upcoming_add]
      cases hr : (draw (afterDraws n s)).1 with
      | ok i => exact .inl (by simp_all [upcoming, replyOk])
      | err e =>
        refine .inr ⟨n + 1, e, by omega, le_refl _, upcoming n s, ?_, h⟩
        rw [upcoming_add]; simp [upcoming, hr]
    · exact .inr ⟨k, e, h1, by omega, h3⟩

/-- Four good answers are four bytes. -/
theorem upcoming_four_ok {s : State} (h : (upcoming 4 s).all replyOk = true) :
    ∃ x i2 i1 i0, upcoming 4 s = [.ok x, .ok i2, .ok i1, .ok i0] := by
  simp only [upcoming, List.all_cons, List.all_nil, Bool.and_true, Bool.and_eq_true] at h
  have good : ∀ r : BusReply, replyOk r = true → ∃ i, r = .ok i := by
    intro r hr; cases r with
    | ok i => exact ⟨i, rfl⟩
    | err e => cases hr
  obtain ⟨h1, h2, h3, h4⟩ := h
  obtain ⟨x, hx⟩ := good _ h1
  obtain ⟨a, ha⟩ := good _ h2
  obtain ⟨b, hb⟩ := good _ h3
  obtain ⟨c, hc⟩ := good _ h4
  exact ⟨x, a, b, c, by simp [upcoming, hx, ha, hb, hc]⟩

end Sys2Proof.Machine
end

