-- ==== Sys2Proof/Laws/Frame.lean ====
section
/-! SUPPORT. Everything the transport procedures can do (40_codec R115 to R117): with good answers, and with a first error at
each of their calls. Later proofs cite these and do not unfold the procedures. -/

namespace Sys2Proof.Machine

/-! Emitting an event and taking an answer do not touch each other. -/

@[simp] theorem draw_emit (e : Event) (s : State) : draw (emit e s) = ((draw s).1, emit e (draw s).2) := by
  unfold draw emit; cases s.answers <;> rfl

theorem afterDraws_emit (n : Nat) (e : Event) (s : State) : afterDraws n (emit e s) = emit e (afterDraws n s) := by
  induction n generalizing s with
  | zero => rfl
  | succ n ih => simp [afterDraws, ih]

theorem upcoming_emit (n : Nat) (e : Event) (s : State) : upcoming n (emit e s) = upcoming n s :=
  upcoming_congr n rfl rfl

theorem draw_of_ok {s : State} {i : Byte} (h : (draw s).1 = .ok i) : draw s = (.ok i, (draw s).2) := by rw [← h]

theorem draw_of_err {s : State} {e : TransportError} (h : (draw s).1 = .err e) : draw s = (.err e, (draw s).2) := by
  rw [← h]

/-! The calls. -/

theorem busInit_of_ok {s : State} {i : Byte} (h : (draw s).1 = .ok i) :
    busInit s = .ok () (emit (.busInit s.cfg.bus .ok) (draw s).2) := by
  unfold busInit; rw [draw_of_ok h]

theorem busInit_of_err {s : State} {e : TransportError} (h : (draw s).1 = .err e) :
    busInit s = .raise e (emit (.busInit s.cfg.bus (.err e)) (draw s).2) := by
  unfold busInit; rw [draw_of_err h]

theorem txnBegin_of_ok {s : State} {i : Byte} (h : (draw s).1 = .ok i) :
    txnBegin s = .ok () (emit (txnBeginEvent s.cfg .ok) (draw s).2) := by
  unfold txnBegin; rw [draw_of_ok h]; rfl

theorem txnBegin_of_err {s : State} {e : TransportError} (h : (draw s).1 = .err e) :
    txnBegin s = .raise e (emit (txnBeginEvent s.cfg (.err e)) (draw s).2) := by
  unfold txnBegin; rw [draw_of_err h]; rfl

theorem xfer_of_ok {o : Byte} {s : State} {i : Byte} (h : (draw s).1 = .ok i) :
    xfer o s = .ok i (emit (.xfer s.cfg.bus o (.ok i)) (draw s).2) := by
  unfold xfer; rw [draw_of_ok h]

theorem xfer_of_err {o : Byte} {s : State} {e : TransportError} (h : (draw s).1 = .err e) :
    xfer o s = .raise e (emit (.xfer s.cfg.bus o (.err e)) (draw s).2) := by
  unfold xfer; rw [draw_of_err h]

/-! The loop of a frame. -/

theorem xferBytes_cons_ok {b : Byte} {bs : List Byte} {r : Frame} {s : State} {i : Byte} (h : (draw s).1 = .ok i) :
    xferBytes (b :: bs) r s =
      xferBytes bs ((r <<< 8) ||| i.setWidth 24) (emit (.xfer s.cfg.bus b (.ok i)) (draw s).2) := by
  rw [xferBytes, xfer_of_ok h]

theorem xferBytes_cons_err {b : Byte} {bs : List Byte} {r : Frame} {s : State} {e : TransportError}
    (h : (draw s).1 = .err e) :
    xferBytes (b :: bs) r s = .raise e (releaseBus (emit (.xfer s.cfg.bus b (.err e)) (draw s).2)) := by
  rw [xferBytes, xfer_of_err h]

/-- Collecting three bytes puts them side by side (20_memory R54). -/
theorem collect_three (i2 i1 i0 : Byte) :
    (((i2.setWidth 24 <<< 8) ||| i1.setWidth 24) <<< 8) ||| i0.setWidth 24 = i2 ++ i1 ++ i0 := by
  apply BitVec.eq_of_getLsbD_eq
  intro i hi
  simp only [BitVec.getLsbD_or, BitVec.getLsbD_shiftLeft, BitVec.getLsbD_setWidth, BitVec.getLsbD_append]
  interval_cases i <;> simp

/-- A whole frame. -/
theorem txFrame_of_ok (f : Frame) {s : State} {x i2 i1 i0 : Byte}
    (h : upcoming 4 s = [.ok x, .ok i2, .ok i1, .ok i0]) :
    txFrame f s = .ok (i2 ++ i1 ++ i0)
      { afterDraws 4 s with trace := s.trace ++ frameEvents s.cfg f i2 i1 i0 } := by
  simp only [upcoming, List.cons.injEq, and_true] at h
  obtain ⟨h1, h2, h3, h4⟩ := h
  unfold txFrame
  rw [txnBegin_of_ok h1]
  simp only [serialize, pinWrite]
  rw [xferBytes_cons_ok (by simpa using h2), xferBytes_cons_ok (by simpa using h3),
    xferBytes_cons_ok (by simpa using h4), xferBytes]
  simp [collect_three, releaseBus, pinWrite, emit, frameEvents, afterDraws, draw_snd]

/-- A frame that fails at its `n`-th call. -/
theorem txFrame_of_err (f : Frame) {s : State} {n : Nat} {e : TransportError} (h1 : 1 ≤ n) (h4 : n ≤ 4)
    (h : endsAtFirstError (upcoming n s) e) :
    txFrame f s = .raise e
      { afterDraws n s with trace := s.trace ++ cutFrameEvents s.cfg f (upcoming n s) } := by
  obtain ⟨oks, ho, hall⟩ := h
  rw [ho]
  have hlen : oks.length + 1 = n := by simpa using (congrArg List.length ho).symm
  subst hlen
  unfold txFrame
  match oks, ho, hall, h4 with
  | [], ho, _, _ =>
    simp only [upcoming, List.nil_append, List.length_nil, List.cons.injEq, and_true] at ho
    rw [txnBegin_of_err ho]
    simp [cutFrameEvents, emit, afterDraws, draw_snd]
  | [.ok x], ho, _, _ =>
    simp only [upcoming, List.length_cons, List.length_nil, Nat.zero_add, List.cons_append, List.nil_append,
      List.cons.injEq, and_true] at ho
    rw [txnBegin_of_ok ho.1]
    simp only [serialize, pinWrite]
    rw [xferBytes_cons_err (by simpa using ho.2)]
    simp [releaseBus, pinWrite, emit, cutFrameEvents, afterDraws, draw_snd]
  | [.ok x, .ok i2], ho, _, _ =>
    simp only [upcoming, List.length_cons, List.length_nil, Nat.zero_add, List.cons_append, List.nil_append,
      List.cons.injEq, and_true] at ho
    rw [txnBegin_of_ok ho.1]
    simp only [serialize, pinWrite]
    rw [xferBytes_cons_ok (by simpa using ho.2.1), xferBytes_cons_err (by simpa using ho.2.2)]
    simp [releaseBus, pinWrite, emit, cutFrameEvents, afterDraws, draw_snd]
  | [.ok x, .ok i2, .ok i1], ho, _, _ =>
    simp only [upcoming, List.length_cons, List.length_nil, Nat.zero_add, List.cons_append, List.nil_append,
      List.cons.injEq, and_true] at ho
    rw [txnBegin_of_ok ho.1]
    simp only [serialize, pinWrite]
    rw [xferBytes_cons_ok (by simpa using ho.2.1), xferBytes_cons_ok (by simpa using ho.2.2.1),
      xferBytes_cons_err (by simpa using ho.2.2.2)]
    simp [releaseBus, pinWrite, emit, cutFrameEvents, afterDraws, draw_snd]
  | .err e' :: _, _, hall, _ => simp [replyOk] at hall
  | .ok _ :: .err e' :: _, _, hall, _ => simp [replyOk] at hall
  | .ok _ :: .ok _ :: .err e' :: _, _, hall, _ => simp [replyOk] at hall
  | _ :: _ :: _ :: _ :: tl, _, _, h4 => exact absurd h4 (by simp only [List.length_cons]; omega)

/-- Everything a frame can do. -/
theorem txFrame_cases (f : Frame) (s : State) :
    (∃ x i2 i1 i0, upcoming 4 s = [.ok x, .ok i2, .ok i1, .ok i0] ∧
      txFrame f s = .ok (i2 ++ i1 ++ i0)
        { afterDraws 4 s with trace := s.trace ++ frameEvents s.cfg f i2 i1 i0 }) ∨
    (∃ n e, 1 ≤ n ∧ n ≤ 4 ∧ endsAtFirstError (upcoming n s) e ∧
      txFrame f s = .raise e
        { afterDraws n s with trace := s.trace ++ cutFrameEvents s.cfg f (upcoming n s) }) := by
  rcases upcoming_ok_or_error 4 s with h | ⟨n, e, h1, h4, h⟩
  · obtain ⟨x, i2, i1, i0, hx⟩ := upcoming_four_ok h
    exact .inl ⟨x, i2, i1, i0, hx, txFrame_of_ok f hx⟩
  · exact .inr ⟨n, e, h1, h4, h, txFrame_of_err f h1 h4 h⟩

/-! The register primitives. -/

theorem writeReg_of_ok (a : Reg) (p : Word) {s : State} {x i2 i1 i0 : Byte}
    (h : upcoming 4 s = [.ok x, .ok i2, .ok i1, .ok i0]) :
    writeReg a p s = .ok ()
      { afterDraws 4 s with
        trace := s.trace ++ frameEvents s.cfg (encodeFrame .write (regAddr a) p) i2 i1 i0 } := by
  unfold writeReg; rw [txFrame_of_ok _ h]

theorem writeReg_of_err (a : Reg) (p : Word) {s : State} {n : Nat} {e : TransportError} (h1 : 1 ≤ n) (h4 : n ≤ 4)
    (h : endsAtFirstError (upcoming n s) e) :
    writeReg a p s = .raise e
      { afterDraws n s with
        trace := s.trace ++ cutFrameEvents s.cfg (encodeFrame .write (regAddr a) p) (upcoming n s) } := by
  unfold writeReg; rw [txFrame_of_err _ h1 h4 h]

theorem readReg_of_ok (a : Reg) {s : State} {x i2 i1 i0 y j2 j1 j0 : Byte}
    (h : upcoming 8 s = [.ok x, .ok i2, .ok i1, .ok i0, .ok y, .ok j2, .ok j1, .ok j0]) :
    readReg a s = .ok (decodeReadback (j2 ++ j1 ++ j0))
      { afterDraws 8 s with
        trace := s.trace ++ frameEvents s.cfg (encodeFrame .read (regAddr a) 0#32) i2 i1 i0
          ++ frameEvents s.cfg 0x000000#24 j2 j1 j0 } := by
  rw [show (8 : Nat) = 4 + 4 from rfl, upcoming_add] at h
  obtain ⟨h1, h2⟩ := List.append_inj (s₁ := upcoming 4 s) (s₂ := [.ok x, .ok i2, .ok i1, .ok i0])
    (t₂ := [.ok y, .ok j2, .ok j1, .ok j0]) h (by simp)
  unfold readReg
  rw [txFrame_of_ok _ h1]
  simp only []
  rw [txFrame_of_ok (i2 := j2) (i1 := j1) (i0 := j0) (x := y) _ (by rw [← h2]; exact upcoming_congr 4 rfl rfl)]
  simp [afterDraws_eq]

theorem readReg_of_err_first (a : Reg) {s : State} {n : Nat} {e : TransportError} (h1 : 1 ≤ n) (h4 : n ≤ 4)
    (h : endsAtFirstError (upcoming n s) e) :
    readReg a s = .raise e
      { afterDraws n s with
        trace := s.trace ++ cutFrameEvents s.cfg (encodeFrame .read (regAddr a) 0#32) (upcoming n s) } := by
  unfold readReg; rw [txFrame_of_err _ h1 h4 h]

theorem readReg_of_err_second (a : Reg) {s : State} {x i2 i1 i0 : Byte} {n : Nat} {e : TransportError}
    (h : upcoming 4 s = [.ok x, .ok i2, .ok i1, .ok i0]) (h1 : 1 ≤ n) (h4 : n ≤ 4)
    (he : endsAtFirstError (upcoming n (afterDraws 4 s)) e) :
    readReg a s = .raise e
      { afterDraws (4 + n) s with
        trace := s.trace ++ frameEvents s.cfg (encodeFrame .read (regAddr a) 0#32) i2 i1 i0
          ++ cutFrameEvents s.cfg 0x000000#24 (upcoming n (afterDraws 4 s)) } := by
  unfold readReg
  rw [txFrame_of_ok _ h]
  have hu : ∀ tr, upcoming n { afterDraws 4 s with trace := tr } = upcoming n (afterDraws 4 s) :=
    fun _ => upcoming_congr n rfl rfl
  simp only []
  rw [txFrame_of_err _ h1 h4 (by rw [hu]; exact he), hu]
  simp [afterDraws_eq, Nat.add_comm, Nat.add_left_comm]

end Sys2Proof.Machine
end

