-- ==== Sys2Proof/Laws/Run.lean ====
section
/-! SUPPORT. What an instruction does, said once for all of them: it is turned away with a cause, or it sends its frames one
after another and completes, or it fails at one of them. `BEGIN` has its own lemma. -/

namespace Sys2Proof.Machine

/-! ### The dispatcher -/

theorem execute_illegal {cls : OperandClass} {opd : Word} {rule : ModeRule} {body : Body} {s : State}
    (h : operandLegal cls opd = false) : execute cls opd rule body s = fail .illegalOperand s := by
  simp [execute, h]

theorem execute_notReady {cls : OperandClass} {opd : Word} {rule : ModeRule} {body : Body} {s : State}
    (h : operandLegal cls opd = true) (hm : modeAllows rule s.mode = false) :
    execute cls opd rule body s = fail .notReady s := by
  simp [execute, h, hm]

theorem execute_run {cls : OperandClass} {opd : Word} {rule : ModeRule} {body : Body} {s : State}
    (h : operandLegal cls opd = true) (hm : modeAllows rule s.mode = true) :
    execute cls opd rule body s = finish (body s) := by
  simp [execute, h, hm]

/-! ### Frames one after another -/

/-- Send frames in turn; stop at the first that fails. -/
def sendFrames : List Frame → State → Option TransportError × State
  | [], s => (none, s)
  | f :: fs, s =>
    match txFrame f s with
    | .raise e s' => (some e, s')
    | .ok _ s' => sendFrames fs s'

/-- The frames an instruction sends from a state in which it runs (30_encoding R96). -/
def framesOf (i : Instr) (s : State) : List Frame :=
  match i with
  | .setValue opd =>
    (0x1#4 ++ scaleValue s.cfg.offset opd) :: (match s.cfg.ldacPin with | some _ => [] | none => [0x400001#24])
  | .readValue _ => [0x900000#24, 0x000000#24]
  | .setClearCode opd => [0x3#4 ++ scaleValue s.cfg.offset opd]
  | .updateControlRegister _ => [0x2#4 ++ s.img.extractLsb' 0 20]
  | .enableOutput _ => [0x2#4 ++ (s.img &&& ~~~0x00C#32).extractLsb' 0 20]
  | .reset _ => [0x2#4 ++ (s.img &&& ~~~0x00C#32).extractLsb' 0 20]
  | .readControlRegister _ => [0xA00000#24, 0x000000#24]
  | .frameWrDac p => [0x1#4 ++ p]
  | .frameWrCtrl p => [0x2#4 ++ p]
  | .frameWrClr p => [0x3#4 ++ p]
  | .frameWrSwctrlLdac => [0x400001#24]
  | .frameRdDac => [0x900000#24]
  | .frameRdCtrl => [0xA00000#24]
  | .frameNop => [0x000000#24]
  | .begin _ | .setInternalAmplifier _ | .setOutputClamp _ | .setTristateMode _ | .setOffsetBinary _
  | .setReferenceInputRange _ | .reservedD _ | .reservedE _ | .reservedF _ => []

/-- The image an instruction leaves where it runs. -/
def imageOf (i : Instr) (img : Word) : Word :=
  match i with
  | .setInternalAmplifier opd => fieldWrite .rbuf (fieldBit (!operandBool opd)) img
  | .setOutputClamp opd => fieldWrite .opgnd (fieldBit (operandBool opd)) img
  | .setTristateMode opd => fieldWrite .dactri (fieldBit (operandBool opd)) img
  | .setOffsetBinary opd => fieldWrite .bin2sc (fieldBit (operandBool opd)) img
  | .setReferenceInputRange opd => fieldWrite .lincomp (rangeCode (operandBool opd)) img
  | .enableOutput _ | .reset _ => fieldWrite .dactri 0b0000#4 (fieldWrite .opgnd 0b0000#4 img)
  | .begin _ | .setValue _ | .readValue _ | .setClearCode _ | .updateControlRegister _ | .readControlRegister _
  | .reservedD _ | .reservedE _ | .reservedF _ | .frameWrDac _ | .frameWrCtrl _ | .frameWrClr _
  | .frameWrSwctrlLdac | .frameRdDac | .frameRdCtrl | .frameNop => img

/-- A wire frame is one that the block emits in this state (30_encoding R96); every other instruction is its own. -/
def emits (i : Instr) (s : State) : Bool :=
  match i with
  | .frameWrDac p | .frameWrClr p => valuePayloadEmitted p s
  | .frameWrCtrl p => imagePayloadEmitted p s
  | .frameWrSwctrlLdac => loadFrameEmitted s
  | .frameRdDac | .frameRdCtrl | .frameNop => true
  | .begin _ | .setValue _ | .readValue _ | .setClearCode _ | .updateControlRegister _ | .readControlRegister _
  | .setInternalAmplifier _ | .setOutputClamp _ | .setTristateMode _ | .setOffsetBinary _
  | .setReferenceInputRange _ | .enableOutput _ | .reset _ | .reservedD _ | .reservedE _ | .reservedF _ => true

/-- The pin writes after an instruction's frames (42_value R141). -/
def pulsesOf (i : Instr) (s : State) : List Event :=
  match i with
  | .setValue _ => (match s.cfg.ldacPin with | some p => [.pinWrite p .high, .pinWrite p .low] | none => [])
  | .begin _ | .readValue _ | .setClearCode _ | .updateControlRegister _ | .readControlRegister _
  | .setInternalAmplifier _ | .setOutputClamp _ | .setTristateMode _ | .setOffsetBinary _
  | .setReferenceInputRange _ | .enableOutput _ | .reset _
  | .reservedD _ | .reservedE _ | .reservedF _ | .frameWrDac _ | .frameWrCtrl _ | .frameWrClr _
  | .frameWrSwctrlLdac | .frameRdDac | .frameRdCtrl | .frameNop => []

/-- A completed instruction carries a result exactly where it is a read command. -/
def readsBack : Instr → Bool
  | .readValue _ | .readControlRegister _ => true
  | .begin _ | .setValue _ | .setClearCode _ | .updateControlRegister _
  | .setInternalAmplifier _ | .setOutputClamp _ | .setTristateMode _ | .setOffsetBinary _
  | .setReferenceInputRange _ | .enableOutput _ | .reset _
  | .reservedD _ | .reservedE _ | .reservedF _ | .frameWrDac _ | .frameWrCtrl _ | .frameWrClr _
  | .frameWrSwctrlLdac | .frameRdDac | .frameRdCtrl | .frameNop => false

/-- How a run of an instruction ends from a state in which it runs. -/
inductive Ran (i : Instr) (s t : State) : Prop where
  /-- A command sent its frames and completed. -/
  | completed (s' : State) (res : Option (Word × BitVec 4)) (hi : i.isFrame = false)
      (hs : sendFrames (framesOf i s) { s with img := imageOf i s.img } = (none, s'))
      (hr : res.isSome = readsBack i)
      (ht : t = complete res { s' with trace := s'.trace ++ pulsesOf i s })
  /-- A wire frame was sent. -/
  | sent (hi : i.isFrame = true) (hs : sendFrames (framesOf i s) s = (none, t))
  /-- A frame failed. -/
  | failed (s' : State) (e : TransportError)
      (hs : sendFrames (framesOf i s) { s with img := imageOf i s.img } = (some e, s'))
      (ht : t = failTransport e s')

theorem sendFrames_one (f : Frame) (s : State) :
    sendFrames [f] s = match txFrame f s with
      | .raise e s' => (some e, s')
      | .ok _ s' => (none, s') := by
  unfold sendFrames; split <;> simp_all [sendFrames]

theorem sendFrames_two (f g : Frame) (s : State) :
    sendFrames [f, g] s = match txFrame f s with
      | .raise e s' => (some e, s')
      | .ok _ s' => match txFrame g s' with
        | .raise e s'' => (some e, s'')
        | .ok _ s'' => (none, s'') := by
  rw [sendFrames]; split <;> simp_all [sendFrames_one]

/-- A write of one register, as the frame it sends. -/
theorem writeReg_sends (a : Reg) (p : Word) (s : State) :
    (∃ s', writeReg a p s = .ok () s' ∧ sendFrames [encodeFrame .write (regAddr a) p] s = (none, s')) ∨
    (∃ e s', writeReg a p s = .raise e s' ∧ sendFrames [encodeFrame .write (regAddr a) p] s = (some e, s')) := by
  rw [sendFrames_one]; unfold writeReg
  cases txFrame (encodeFrame .write (regAddr a) p) s with
  | ok r s' => exact .inl ⟨s', rfl, rfl⟩
  | raise e s' => exact .inr ⟨e, s', rfl, rfl⟩

/-- A read of one register, as the frames it sends. -/
theorem readReg_sends (a : Reg) (s : State) :
    (∃ v s', readReg a s = .ok v s' ∧ sendFrames [encodeFrame .read (regAddr a) 0#32, 0x000000#24] s = (none, s')) ∨
    (∃ e s', readReg a s = .raise e s' ∧
      sendFrames [encodeFrame .read (regAddr a) 0#32, 0x000000#24] s = (some e, s')) := by
  rw [sendFrames_two]; unfold readReg
  cases txFrame (encodeFrame .read (regAddr a) 0#32) s with
  | raise e s' => exact .inr ⟨e, s', rfl, rfl⟩
  | ok r s' =>
    simp only []
    cases txFrame 0x000000#24 s' with
    | ok r s'' => exact .inl ⟨_, s'', rfl, rfl⟩
    | raise e s'' => exact .inr ⟨e, s'', rfl, rfl⟩

/-! ### What sending does to the state -/

/-- Sending frames moves the trace and the answers only; it takes answers up to the first error, and fails exactly there. -/
theorem sendFrames_effect (fs : List Frame) (s : State) :
    ∃ n evs, n ≤ 4 * fs.length ∧ evs.length ≤ 7 * fs.length ∧
      (sendFrames fs s).2 = { afterDraws n s with trace := s.trace ++ evs } ∧
      (((sendFrames fs s).1 = none ∧ (upcoming n s).all replyOk = true) ∨
       (∃ e, (sendFrames fs s).1 = some e ∧ endsAtFirstError (upcoming n s) e)) := by
  induction fs generalizing s with
  | nil => exact ⟨0, [], by simp, by simp, by simp [sendFrames, afterDraws], .inl ⟨rfl, rfl⟩⟩
  | cons f fs ih =>
    rcases txFrame_cases f s with ⟨x, i2, i1, i0, hu, h⟩ | ⟨n, e, h1, h4, he, h⟩
    · obtain ⟨n, evs, hn, hl, hs, hcase⟩ :=
        ih { afterDraws 4 s with trace := s.trace ++ frameEvents s.cfg f i2 i1 i0 }
      have hc : ∀ tr, upcoming n { afterDraws 4 s with trace := tr } = upcoming n (afterDraws 4 s) :=
        fun _ => upcoming_congr n rfl rfl
      rw [hc] at hcase
      refine ⟨4 + n, frameEvents s.cfg f i2 i1 i0 ++ evs, by simp; omega, by simp [frameEvents]; omega, ?_, ?_⟩
      · rw [sendFrames, h]; simp only []; rw [hs]; simp [afterDraws_eq, Nat.add_comm, Nat.add_left_comm]
      · rw [sendFrames, h, upcoming_add, hu]
        rcases hcase with ⟨hn, hall⟩ | ⟨e, hsome, oks, hoks, hall⟩
        · exact .inl ⟨hn, by simpa [replyOk] using hall⟩
        · exact .inr ⟨e, hsome, [.ok x, .ok i2, .ok i1, .ok i0] ++ oks, by simp [hoks], by simpa [replyOk] using hall⟩
    · refine ⟨n, cutFrameEvents s.cfg f (upcoming n s), by simp; omega, ?_, by rw [sendFrames, h], .inr ⟨e, ?_, he⟩⟩
      · have hlen : (upcoming n s).length ≤ 4 := by simp [h4]
        have : (cutFrameEvents s.cfg f (upcoming n s)).length ≤ 7 := by
          unfold cutFrameEvents
          split
          · simp
          · simp
          · simp; omega
        simp; omega
      · rw [sendFrames, h]

/-! ### The inversion lemma -/

/-- A one-register write command in `READY`. -/
theorem ran_of_write {i : Instr} {s t : State} {a : Reg} {p : Word} (hf : i.isFrame = false) (hr : readsBack i = false)
    (hp : pulsesOf i s = []) (hfr : framesOf i s = [encodeFrame .write (regAddr a) p])
    (ht : t = finish (noResult (writeReg a p { s with img := imageOf i s.img }))) : Ran i s t := by
  rcases writeReg_sends a p { s with img := imageOf i s.img } with ⟨s', h, hs⟩ | ⟨e, s', h, hs⟩
  · rw [h] at ht
    exact .completed s' none hf (by rw [hfr]; exact hs) (by rw [hr]; rfl) (by rw [hp]; simpa [noResult, finish] using ht)
  · rw [h] at ht
    exact .failed s' e (by rw [hfr]; exact hs) ht

/-- A wire frame in `READY`. -/
theorem ran_of_frame {i : Instr} {s t : State} {f : Frame} (hf : i.isFrame = true) (hi : imageOf i s.img = s.img)
    (hfr : framesOf i s = [f]) (ht : t = finishFrame (txFrame f s)) : Ran i s t := by
  cases h : txFrame f s with
  | ok r s' => rw [h] at ht; exact .sent hf (by rw [hfr, sendFrames_one, h, ht]; rfl)
  | raise e s' =>
    rw [h] at ht
    refine .failed s' e ?_ ht
    rw [hfr, hi, sendFrames_one, h]

theorem beginPins_eq (s : State) : beginPins s = { s with trace := s.trace ++ beginPinEvents s.cfg } := by
  unfold beginPins beginPinEvents
  cases hl : s.cfg.ldacPin <;> simp [pinWrite, pinMode, emit]

/-- How a `BEGIN` with a legal operand ends. -/
inductive Began (opd : Word) (s t : State) : Prop where
  /-- Without `BusInit`. -/
  | plain (ho : opd = 0#32)
      (ht : t = complete none { s with mode := .ready, trace := s.trace ++ beginPinEvents s.cfg })
  /-- With a `BusInit` that succeeded. -/
  | initialized (ho : opd = 1#32) (i : Byte) (hd : (draw s).1 = .ok i)
      (ht : t = complete none { afterDraws 1 s with
        mode := .ready, trace := s.trace ++ beginPinEvents s.cfg ++ [.busInit s.cfg.bus .ok] })
  /-- With a `BusInit` that failed. -/
  | failed (ho : opd = 1#32) (e : TransportError) (hd : (draw s).1 = .err e)
      (ht : t = failTransport e { afterDraws 1 s with
        trace := s.trace ++ beginPinEvents s.cfg ++ [.busInit s.cfg.bus (.err e)] })

theorem beginBody_false (s : State) :
    beginBody false s = .ok () { s with mode := .ready, trace := s.trace ++ beginPinEvents s.cfg } := by
  simp [beginBody, beginPins_eq]

theorem beginBody_true (s : State) :
    beginBody true s = match (draw s).1 with
      | .ok _ => .ok () { afterDraws 1 s with
          mode := .ready, trace := s.trace ++ beginPinEvents s.cfg ++ [.busInit s.cfg.bus .ok] }
      | .err e => .raise e { afterDraws 1 s with
          trace := s.trace ++ beginPinEvents s.cfg ++ [.busInit s.cfg.bus (.err e)] } := by
  have hd : (draw { s with trace := s.trace ++ beginPinEvents s.cfg }).1 = (draw s).1 := draw_fst_congr rfl rfl
  simp only [beginBody, beginPins_eq, if_true]
  cases h : (draw s).1 with
  | ok i => rw [busInit_of_ok (hd.trans h)]; simp [emit, afterDraws, draw_snd]
  | err e => rw [busInit_of_err (hd.trans h)]; simp [emit, afterDraws, draw_snd]

theorem began_of_exec {opd : Word} {s t : State} (hw : boolOperandOk opd = true)
    (h : exec (.begin opd) s = .next t) : Began opd s t := by
  have ho : opd = 0#32 ∨ opd = 1#32 := by simpa [boolOperandOk] using hw
  simp only [exec, execBegin, Host.Outcome.next.injEq] at h
  rw [execute_run (by rw [operandLegal_bool_iff]; exact hw) rfl] at h
  rcases ho with rfl | rfl
  · rw [show operandBool 0#32 = false from rfl, beginBody_false] at h
    exact .plain rfl h.symm
  · rw [show operandBool 1#32 = true from rfl, beginBody_true] at h
    cases hd : (draw s).1 with
    | ok i => rw [hd] at h; exact .initialized rfl i hd h.symm
    | err e => rw [hd] at h; exact .failed rfl e hd h.symm

/-- A pulse after the frames. -/
theorem pinPulse_eq (p : PinId) (s : State) :
    pinPulse p s = { s with trace := s.trace ++ [.pinWrite p .high, .pinWrite p .low] } := by
  simp [pinPulse, pinWrite, emit]

/-- `SET_VALUE` in `READY`. -/
theorem ran_setValue {v : Word} {s t : State}
    (ht : t = finish (noResult (setValueBody v s))) : Ran (.setValue v) s t := by
  have himg : { s with img := imageOf (.setValue v) s.img } = s := rfl
  unfold setValueBody writeReg commit softLoad at ht
  rw [encode_dac_write] at ht
  rcases txFrame_cases (0x1#4 ++ scaleValue s.cfg.offset v) s with ⟨x, i2, i1, i0, _, h⟩ | ⟨n, e, _, _, _, h⟩
  · rw [h] at ht
    cases hl : s.cfg.ldacPin with
    | some p =>
      simp only [afterDraws_eq, hl, noResult, pinPulse_eq] at ht
      refine .completed _ none rfl (by rw [himg, framesOf, hl, sendFrames_one, h]) rfl ?_
      simpa [pulsesOf, hl, afterDraws_eq, finish] using ht
    | none =>
      simp only [afterDraws_eq, hl, writeReg, encode_load_frame] at ht
      simp only [afterDraws_eq] at h
      cases h2 : txFrame 0x400001#24 { s with
          trace := s.trace ++ frameEvents s.cfg (0x1#4 ++ scaleValue s.cfg.offset v) i2 i1 i0
          answers := s.answers.drop 4, draws := s.draws + 4 } with
      | ok r s' =>
        rw [h2] at ht
        refine .completed s' none rfl (by rw [himg, framesOf, hl, sendFrames_two, h]; simp only []; rw [h2]) rfl ?_
        simpa [pulsesOf, hl, noResult, finish] using ht
      | raise e s' =>
        rw [h2] at ht
        exact .failed s' e (by rw [himg, framesOf, hl, sendFrames_two, h]; simp only []; rw [h2]) ht
  · rw [h] at ht
    exact .failed _ e (by rw [himg, framesOf]; cases s.cfg.ldacPin <;> simp [sendFrames, h]) ht

/-- A read command in `READY`. -/
theorem ran_of_read {i : Instr} {s t : State} {a : Reg} {g : Payload → Word} (hf : i.isFrame = false)
    (hr : readsBack i = true) (hp : pulsesOf i s = []) (hi : imageOf i s.img = s.img)
    (hfr : framesOf i s = [encodeFrame .read (regAddr a) 0#32, 0x000000#24])
    (body : Body) (hok : ∀ d e s', readReg a s = .ok (d, e) s' → body s = .ok (some (g d, e)) s')
    (herr : ∀ e s', readReg a s = .raise e s' → body s = .raise e s') (ht : t = finish (body s)) : Ran i s t := by
  have himg : { s with img := imageOf i s.img } = s := by rw [hi]
  rcases readReg_sends a s with ⟨⟨d, e⟩, s', h, hs⟩ | ⟨e, s', h, hs⟩
  · rw [hok _ _ _ h] at ht
    exact .completed s' (some (g d, e)) hf (by rw [himg, hfr]; exact hs) (by rw [hr]; rfl)
      (by rw [hp]; simpa [finish] using ht)
  · rw [herr _ _ h] at ht
    exact .failed s' e (by rw [himg, hfr]; exact hs) ht

/-- A setter in `READY`. -/
theorem ran_of_setter {i : Instr} {s t : State} {f : Field} {v : BitVec 4} (hf : i.isFrame = false)
    (hr : readsBack i = false) (hp : pulsesOf i s = []) (hi : imageOf i s.img = fieldWrite f v s.img)
    (hfr : framesOf i s = []) (ht : t = complete none (writeField f v s)) : Ran i s t :=
  .completed { s with img := imageOf i s.img } none hf (by rw [hfr]; rfl) (by rw [hr]; rfl)
    (by rw [hp, hi]; simpa [writeField] using ht)

/-- The five ways an instruction can end. -/
inductive ExecCases (i : Instr) (s t : State) : Prop where
  | reserved (hi : i.isReserved = true) (ht : t = fail .illegalOpcode s)
  | illegalOperand (hi : i.wellFormed = false) (ht : t = fail .illegalOperand s)
  | notReady (hr : i.isReserved = false) (hi : i.wellFormed = true) (hb : ∀ opd, i ≠ .begin opd)
      (hm : s.mode = .unconfigured) (ht : t = fail .notReady s)
  | ran (hr : i.isReserved = false) (hi : i.wellFormed = true) (hb : ∀ opd, i ≠ .begin opd) (hm : s.mode = .ready)
      (he : emits i s = true) (h : Ran i s t)
  | began (opd : Word) (hi : i = .begin opd) (hw : boolOperandOk opd = true) (h : Began opd s t)

/-- The dispatcher's cases for a command that runs in `READY` only. -/
theorem execCases_of_execute {i : Instr} {cls : OperandClass} {opd : Word} {body : Body} {s t : State}
    (hr : i.isReserved = false) (he : emits i s = true) (hb : ∀ opd, i ≠ .begin opd)
    (hw : i.wellFormed = operandLegal cls opd)
    (ht : t = execute cls opd .readyOnly body s)
    (hrun : ∀ t, t = finish (body s) → Ran i s t) : ExecCases i s t := by
  cases hl : operandLegal cls opd with
  | false => rw [execute_illegal hl] at ht; exact .illegalOperand (hw.trans hl) ht
  | true =>
    cases hm : s.mode with
    | unconfigured => rw [execute_notReady hl (by rw [hm]; rfl)] at ht; exact .notReady hr (hw.trans hl) hb hm ht
    | ready => rw [execute_run hl (by rw [hm]; rfl)] at ht; exact .ran hr (hw.trans hl) hb hm he (hrun t ht)

/-- Everything a wire frame can do. -/
theorem executeFrame_cases (b : Bool) (f : Frame) (s : State) :
    (s.mode = .unconfigured ∧ executeFrame b f s = .next (fail .notReady s)) ∨
    (s.mode = .ready ∧ b = true ∧ executeFrame b f s = .next (finishFrame (txFrame f s))) ∨
    (s.mode = .ready ∧ b = false ∧ executeFrame b f s = .refused .frameNeverEmitted) := by
  unfold executeFrame
  cases s.mode <;> cases b <;> simp [modeAllows]

/-- The cases of a wire frame that answers a next state. -/
theorem execCases_of_frame {i : Instr} {f : Frame} {s t : State} (hr : i.isReserved = false) (hw : i.wellFormed = true)
    (hb : ∀ opd, i ≠ .begin opd) (hf : i.isFrame = true) (hi : imageOf i s.img = s.img)
    (hfr : framesOf i s = [f]) (ht : executeFrame (emits i s) f s = .next t) : ExecCases i s t := by
  rcases executeFrame_cases (emits i s) f s with ⟨hm, h⟩ | ⟨hm, he, h⟩ | ⟨_, _, h⟩
  · rw [h] at ht; cases ht; exact .notReady hr hw hb hm rfl
  · rw [h] at ht; cases ht; exact .ran hr hw hb hm he (ran_of_frame hf hi hfr rfl)
  · rw [h] at ht; cases ht

/-- THE INVERSION LEMMA: everything an instruction can do. -/
theorem exec_cases {i : Instr} {s t : State} (h : exec i s = .next t) : ExecCases i s t := by
  cases i with
  | begin opd =>
    cases hw : boolOperandOk opd with
    | true => exact .began opd rfl hw (began_of_exec hw h)
    | false =>
      simp only [exec, execBegin, Host.Outcome.next.injEq] at h
      rw [execute_illegal (by rw [operandLegal_bool_iff]; exact hw)] at h
      exact .illegalOperand hw h.symm
  | setValue opd =>
    exact execCases_of_execute (cls := .value) rfl rfl (by simp) rfl (Host.Outcome.next.inj h).symm (fun t ht => ran_setValue ht)
  | readValue opd =>
    refine execCases_of_execute (cls := .none) rfl rfl (by simp) rfl (Host.Outcome.next.inj h).symm (fun t ht => ?_)
    exact ran_of_read (a := .dac) rfl rfl rfl rfl (by rw [encode_dac_read]; rfl) readValueBody
      (fun d e s' h => by rw [readValueBody, h]) (fun e s' h => by rw [readValueBody, h]) ht
  | setClearCode opd =>
    refine execCases_of_execute (cls := .value) rfl rfl (by simp) rfl (Host.Outcome.next.inj h).symm (fun t ht => ?_)
    exact ran_of_write (a := .clr) rfl rfl rfl (by rw [encode_clr_write]; rfl) ht
  | setInternalAmplifier opd =>
    exact execCases_of_execute (cls := .bool) rfl rfl (by simp) (operandLegal_bool_iff opd).symm
      (Host.Outcome.next.inj h).symm (fun t ht => ran_of_setter rfl rfl rfl rfl rfl ht)
  | setOutputClamp opd =>
    exact execCases_of_execute (cls := .bool) rfl rfl (by simp) (operandLegal_bool_iff opd).symm
      (Host.Outcome.next.inj h).symm (fun t ht => ran_of_setter rfl rfl rfl rfl rfl ht)
  | setTristateMode opd =>
    exact execCases_of_execute (cls := .bool) rfl rfl (by simp) (operandLegal_bool_iff opd).symm
      (Host.Outcome.next.inj h).symm (fun t ht => ran_of_setter rfl rfl rfl rfl rfl ht)
  | setOffsetBinary opd =>
    exact execCases_of_execute (cls := .bool) rfl rfl (by simp) (operandLegal_bool_iff opd).symm
      (Host.Outcome.next.inj h).symm (fun t ht => ran_of_setter rfl rfl rfl rfl rfl ht)
  | setReferenceInputRange opd =>
    exact execCases_of_execute (cls := .bool) rfl rfl (by simp) (operandLegal_bool_iff opd).symm
      (Host.Outcome.next.inj h).symm (fun t ht => ran_of_setter rfl rfl rfl rfl rfl ht)
  | updateControlRegister opd =>
    refine execCases_of_execute (cls := .none) rfl rfl (by simp) rfl (Host.Outcome.next.inj h).symm (fun t ht => ?_)
    exact ran_of_write (a := .ctrl) (p := s.img) rfl rfl rfl (by rw [encode_image_write]; rfl) ht
  | enableOutput opd =>
    refine execCases_of_execute (cls := .none) rfl rfl (by simp) rfl (Host.Outcome.next.inj h).symm (fun t ht => ?_)
    refine ran_of_write (a := .ctrl) (p := imageOf (.enableOutput opd) s.img) rfl rfl rfl ?_ ?_
    · rw [encode_image_write, imageOf, fieldWrite_sequence]; rfl
    · simpa only [enableOutputBody, updateBody, writeField, imageOf] using ht
  | readControlRegister opd =>
    refine execCases_of_execute (cls := .none) rfl rfl (by simp) rfl (Host.Outcome.next.inj h).symm (fun t ht => ?_)
    exact ran_of_read (a := .ctrl) rfl rfl rfl rfl (by rw [encode_ctrl_read]; rfl) readControlBody
      (fun d e s' h => by rw [readControlBody, h]) (fun e s' h => by rw [readControlBody, h]) ht
  | reset opd =>
    refine execCases_of_execute (cls := .none) rfl rfl (by simp) rfl (Host.Outcome.next.inj h).symm (fun t ht => ?_)
    refine ran_of_write (a := .ctrl) (p := imageOf (.reset opd) s.img) rfl rfl rfl ?_ ?_
    · rw [encode_image_write, imageOf, fieldWrite_sequence]; rfl
    · simpa only [enableOutputBody, updateBody, writeField, imageOf] using ht
  | reservedD opd => exact .reserved rfl (Host.Outcome.next.inj h).symm
  | reservedE opd => exact .reserved rfl (Host.Outcome.next.inj h).symm
  | reservedF opd => exact .reserved rfl (Host.Outcome.next.inj h).symm
  | frameWrDac p =>
    exact execCases_of_frame rfl rfl (by simp) rfl rfl (by rw [framesOf, encode_dac_write]) h
  | frameWrCtrl p =>
    exact execCases_of_frame rfl rfl (by simp) rfl rfl (by rw [framesOf, encode_ctrl_write]) h
  | frameWrClr p =>
    exact execCases_of_frame rfl rfl (by simp) rfl rfl (by rw [framesOf, encode_clr_write]) h
  | frameWrSwctrlLdac =>
    exact execCases_of_frame rfl rfl (by simp) rfl rfl (by rw [framesOf, encode_load_frame]) h
  | frameRdDac =>
    exact execCases_of_frame rfl rfl (by simp) rfl rfl (by rw [framesOf, encode_dac_read]) h
  | frameRdCtrl =>
    exact execCases_of_frame rfl rfl (by simp) rfl rfl (by rw [framesOf, encode_ctrl_read]) h
  | frameNop =>
    exact execCases_of_frame rfl rfl (by simp) rfl rfl (by rw [framesOf, encode_nop]) h

/-- Every word of the host answers a next state: nothing it presents stops the machine. -/
theorem exec_total {i : Instr} (h : i.isFrame = false) (s : State) : ∃ t, exec i s = .next t := by
  cases i <;> first | exact ⟨_, rfl⟩ | cases h

theorem framesOf_length_le (i : Instr) (s : State) : (framesOf i s).length ≤ 2 := by
  cases i <;> simp [framesOf]; split <;> simp

theorem imageOf_frame {i : Instr} (h : i.isFrame = true) (img : Word) : imageOf i img = img := by
  cases i <;> simp_all [imageOf, Instr.isFrame]

/-- Everything an instruction can do, as records: turned away, `BEGIN`, or run to one of three ends. -/
theorem exec_summary {i : Instr} {s t : State} (ht : exec i s = .next t) :
    (∃ c, t = fail c s ∧ (c = .illegalOpcode ∧ i.isReserved = true ∨ c = .illegalOperand ∧ i.wellFormed = false ∨
      c = .notReady ∧ s.mode = .unconfigured ∧ ∀ opd, i ≠ .begin opd)) ∨
    (∃ opd, i = .begin opd ∧ boolOperandOk opd = true ∧ Began opd s t) ∨
    (s.mode = .ready ∧ i.wellFormed = true ∧ i.isReserved = false ∧ (∀ opd, i ≠ .begin opd) ∧ emits i s = true ∧
      ∃ n evs, evs.length ≤ 7 * (framesOf i s).length ∧
        ((i.isFrame = false ∧ ∃ res, res.isSome = readsBack i ∧ t = complete res { afterDraws n s with
            img := imageOf i s.img, trace := s.trace ++ evs ++ pulsesOf i s }) ∨
         (i.isFrame = true ∧ t = { afterDraws n s with trace := s.trace ++ evs }) ∨
         (∃ e, t = failTransport e { afterDraws n s with img := imageOf i s.img, trace := s.trace ++ evs }))) := by
  rcases exec_cases ht with ⟨hi, h⟩ | ⟨hi, h⟩ | ⟨_, _, hb, hm, h⟩ | ⟨hr, hi, hb, hm, he, h⟩ | ⟨opd, h, hw, hb⟩
  · exact .inl ⟨_, h, .inl ⟨rfl, hi⟩⟩
  · exact .inl ⟨_, h, .inr (.inl ⟨rfl, hi⟩)⟩
  · exact .inl ⟨_, h, .inr (.inr ⟨rfl, hm, hb⟩)⟩
  · refine .inr (.inr ⟨hm, hi, hr, hb, he, ?_⟩)
    obtain ⟨n, evs, _, hl, h2, _⟩ := sendFrames_effect (framesOf i s) { s with img := imageOf i s.img }
    rcases h with ⟨s', res, hf, hs, hr, h⟩ | ⟨hf, hs⟩ | ⟨s', e, hs, h⟩
    · rw [hs] at h2; simp only [] at h2; subst h2; subst h
      exact ⟨n, evs, hl, .inl ⟨hf, res, hr, by simp [afterDraws_eq]⟩⟩
    · rw [imageOf_frame hf] at h2
      rw [hs] at h2; simp only [] at h2; subst h2
      exact ⟨n, evs, hl, .inr (.inl ⟨hf, rfl⟩)⟩
    · rw [hs] at h2; simp only [] at h2; subst h2; subst h
      exact ⟨n, evs, hl, .inr (.inr ⟨e, by simp [afterDraws_eq]⟩)⟩
  · exact .inr (.inl ⟨opd, h, hw, hb⟩)

/-- The image after an instruction. -/
theorem exec_img {i : Instr} {s t : State} (ht : exec i s = .next t) :
    t.img = if s.mode = .ready ∧ i.wellFormed = true then imageOf i s.img else s.img := by
  rcases exec_summary ht with ⟨c, rfl, hc⟩ | ⟨opd, rfl, _, hb⟩ | ⟨hm, hw, _, _, _, n, evs, _, h⟩
  · rcases hc with ⟨_, h⟩ | ⟨_, h⟩ | ⟨_, h, _⟩
    · cases i <;> simp_all [Instr.isReserved, imageOf]
    · simp [h]
    · simp [h]
  · rcases hb with ⟨_, rfl⟩ | ⟨_, _, _, rfl⟩ | ⟨_, _, _, rfl⟩ <;> simp [afterDraws_eq, imageOf]
  · rcases h with ⟨_, _, _, rfl⟩ | ⟨hf, rfl⟩ | ⟨e, rfl⟩
    · simp [afterDraws_eq, hm, hw]
    · simp [afterDraws_eq, imageOf_frame hf]
    · simp [afterDraws_eq, hm, hw]

/-- A step idles, or runs the instruction of the next word. -/
theorem step_next {s t : State} (h : step s = .next t) :
    (s.requests = [] ∧ t = s) ∨
    ∃ w rest i, s.requests = w :: rest ∧ decode w = .ok i ∧ exec i { s with requests := rest } = .next t := by
  unfold step at h
  cases hr : s.requests with
  | nil => rw [hr] at h; simp only [Host.Outcome.next.injEq] at h; exact .inl ⟨rfl, h.symm⟩
  | cons w rest =>
    rw [hr] at h
    cases hd : decode w with
    | ok i => simp only [hd] at h; exact .inr ⟨w, rest, i, rfl, hd, h⟩
    | error e => cases e; simp only [hd] at h; cases h

/-- The frames of a run of frames that all went out stand whole in the trace. -/
theorem sendFrames_trace {fs : List Frame} {s s' : State} (h : sendFrames fs s = (none, s')) :
    s'.cfg = s.cfg ∧ ∃ sent : List (Frame × Byte × Byte × Byte), sent.map (·.1) = fs ∧
      s'.trace = s.trace ++ (sent.map fun x => frameEvents s.cfg x.1 x.2.1 x.2.2.1 x.2.2.2).flatten := by
  induction fs generalizing s with
  | nil => simp only [sendFrames, Prod.mk.injEq, true_and] at h; subst h; exact ⟨rfl, [], by simp⟩
  | cons f fs ih =>
    rcases txFrame_cases f s with ⟨_, i2, i1, i0, _, ht⟩ | ⟨_, _, _, _, _, ht⟩
    · rw [sendFrames, ht] at h
      obtain ⟨hc, sent, h1, h2⟩ := ih h
      refine ⟨by rw [hc]; simp [afterDraws_eq], (f, i2, i1, i0) :: sent, by simp [h1], ?_⟩
      rw [h2]; simp [afterDraws_eq]
    · rw [sendFrames, ht] at h; simp at h

end Sys2Proof.Machine
end

