-- ==== Sys2Proof/Laws/Bus.lean ====
section
/-! SUPPORT. What a frame's events mean to the pins, to the discipline of the bus and to the reference responder. -/

namespace Sys2Proof.Machine

theorem csDeassert_ne_csAssert (c : Cfg) : csDeassert c ≠ csAssert c := by
  unfold csDeassert csAssert; cases c.csActive <;> simp

/-- In an accepted configuration the load-strobe pin is not the chip-select (00_scope R11). -/
theorem ldacPin_ne_csPin {c : Cfg} (h : cfgAccepted c = true) {p : PinId} (hp : c.ldacPin = some p) : p ≠ c.csPin := by
  rintro rfl; simp [cfgAccepted, hp] at h

/-- The bytes of a frame side by side are the frame (20_memory R54). -/
theorem frame_bytes (f : Frame) : f.extractLsb' 16 8 ++ f.extractLsb' 8 8 ++ f.extractLsb' 0 8 = f := by
  apply BitVec.eq_of_getLsbD_eq; intro i hi
  simp only [BitVec.getLsbD_append, BitVec.getLsbD_extractLsb']
  interval_cases i <;> simp

/-! The discipline of the bus. -/

theorem busAfter_append (c : Cfg) (as bs : List Event) (ph : BusPhase) :
    busAfter c (as ++ bs) ph = (busAfter c as ph).bind (busAfter c bs) := by
  induction as generalizing ph with
  | nil => rfl
  | cons e es ih => simp only [List.cons_append, busAfter]; cases busNext c ph e <;> simp [ih]

theorem busAfter_frameEvents (c : Cfg) {f : Frame} (h : frameAllowed c f = true) (i2 i1 i0 : Byte) :
    busAfter c (frameEvents c f i2 i1 i0) .idle = some .idle := by
  have hk : sentAllowedFrame c [f.extractLsb' 16 8, f.extractLsb' 8 8, f.extractLsb' 0 8] = true := by
    simp [sentAllowedFrame, frame_bytes, h]
  simp [busAfter, frameEvents, busNext, txnBeginEvent, hk]

theorem busAfter_cutFrameEvents (c : Cfg) (f : Frame) {rs : List BusReply} {e : TransportError} (hl : rs.length ≤ 4)
    (h : endsAtFirstError rs e) : busAfter c (cutFrameEvents c f rs) .idle = some .idle := by
  obtain ⟨oks, rfl, ho⟩ := h
  match oks, ho, hl with
  | [], _, _ => simp [cutFrameEvents, busAfter, busNext, txnBeginEvent]
  | [.ok _], _, _ => simp [cutFrameEvents, busAfter, busNext, txnBeginEvent]
  | [.ok _, .ok _], _, _ => simp [cutFrameEvents, busAfter, busNext, txnBeginEvent]
  | [.ok _, .ok _, .ok _], _, _ => simp [cutFrameEvents, busAfter, busNext, txnBeginEvent]
  | .err _ :: _, h, _ => simp [replyOk] at h
  | _ :: .err _ :: _, h, _ => simp [replyOk] at h
  | _ :: _ :: .err _ :: _, h, _ => simp [replyOk] at h
  | _ :: _ :: _ :: _ :: _, _, h => exact absurd h (by simp only [List.length_append, List.length_cons]; omega)

/-- A scaled value leaves the payload's bits below the offset zero (30_encoding R85). -/
theorem scaleValue_mod {o : Nat} (h : o = 0 ∨ o = 2) (v : Word) : (scaleValue o v).toNat % 2 ^ o = 0 := by
  rcases h with rfl | rfl
  · omega
  · have : ∀ p : Payload, p.getLsbD 0 = false → p.getLsbD 1 = false → p.toNat % 2 ^ 2 = 0 := by
      intro p h0 h1
      simp only [BitVec.getLsbD, Nat.testBit, Nat.shiftRight_zero, Nat.one_and_eq_mod_two, Nat.shiftRight_one,
        bne_eq_false_iff_eq] at h0 h1
      omega
    apply this <;> simp [scaleValue]

/-- A legal image is its low twenty bits (10_state R34). -/
theorem imgLegal_payload {img : Word} (h : imgLegal img) : (img.extractLsb' 0 20).setWidth 32 = img := by
  apply BitVec.eq_of_getLsbD_eq; intro k hk
  have h1 := congrArg (·.getLsbD k) h.1
  simp only [BitVec.getLsbD_and, BitVec.getLsbD_setWidth, BitVec.getLsbD_extractLsb'] at h1 ⊢
  by_cases hk' : k < 20
  · simp [hk', hk]
  · interval_cases k <;> simp_all

/-- Clearing clamp and tristate keeps an image legal. -/
theorem imgLegal_sequence {img : Word} (h : imgLegal img) : imgLegal (img &&& ~~~0x00C#32) := by
  refine ⟨?_, ?_⟩
  · rw [BitVec.and_assoc, BitVec.and_comm (~~~0x00C#32), ← BitVec.and_assoc, h.1]; simp
  · rw [BitVec.extractLsb'_and, show (~~~0x00C#32 : Word).extractLsb' 6 4 = BitVec.allOnes 4 by decide, BitVec.and_allOnes]
    exact h.2

theorem frameAllowed_dac {c : Cfg} {p : Payload} (h : p.toNat % 2 ^ c.offset = 0) : frameAllowed c (0x1#4 ++ p) = true := by
  simp [frameAllowed, (decodeWire_write p).1, h]

theorem frameAllowed_clr {c : Cfg} {p : Payload} (h : p.toNat % 2 ^ c.offset = 0) : frameAllowed c (0x3#4 ++ p) = true := by
  simp [frameAllowed, (decodeWire_write p).2.2, h]

theorem frameAllowed_ctrl {c : Cfg} {img : Word} (h : imgLegal img) :
    frameAllowed c (0x2#4 ++ img.extractLsb' 0 20) = true := by
  simp only [frameAllowed, (decodeWire_write _).2.1, imgLegal_payload h]
  exact decide_eq_true h

theorem frameAllowed_load {c : Cfg} (h : c.ldacPin = none) : frameAllowed c 0x400001#24 = true := by
  rw [frameAllowed, show decodeWire 0x400001#24 = .ok .frameWrSwctrlLdac by decide]; exact decide_eq_true h

theorem frameAllowed_fixed (c : Cfg) :
    frameAllowed c 0x900000#24 = true ∧ frameAllowed c 0xA00000#24 = true ∧ frameAllowed c 0x000000#24 = true := by
  refine ⟨?_, ?_, ?_⟩
  · rw [frameAllowed, show decodeWire 0x900000#24 = .ok .frameRdDac by decide]
  · rw [frameAllowed, show decodeWire 0xA00000#24 = .ok .frameRdCtrl by decide]
  · rw [frameAllowed, show decodeWire 0x000000#24 = .ok .frameNop by decide]

/-- A payload that is its own scaling again is a scaled value (30_encoding R85), and every scaled value is. -/
theorem valuePayloadEmitted_iff {p : Payload} {s : State} :
    valuePayloadEmitted p s = true ↔ ∃ v, scaleValue s.cfg.offset v = p := by
  constructor
  · intro h; exact ⟨_, by simpa [valuePayloadEmitted] using h⟩
  · rintro ⟨v, rfl⟩
    simp only [valuePayloadEmitted, beq_iff_eq]
    apply BitVec.eq_of_getLsbD_eq; intro k hk
    simp only [scaleValue, descaleValue, BitVec.getLsbD_setWidth, BitVec.getLsbD_and, BitVec.getLsbD_shiftLeft,
      BitVec.getLsbD_ushiftRight]
    by_cases h : k < s.cfg.offset
    · simp [h]
    · rw [show s.cfg.offset + (k - s.cfg.offset) = k by omega]
      simp [h, hk, show k - s.cfg.offset < 32 by omega, show k < 32 by omega]

/-- Every frame that an instruction sends is one that can leave the block (30_encoding R85 to R88, R96). -/
theorem framesOf_allowed {i : Instr} {s : State} (hc : cfgAccepted s.cfg = true) (hi : imgLegal s.img)
    (he : emits i s = true) {f : Frame} (h : f ∈ framesOf i s) : frameAllowed s.cfg f = true := by
  have ho : s.cfg.offset = 0 ∨ s.cfg.offset = 2 := by
    simp only [cfgAccepted, Bool.and_eq_true, Bool.or_eq_true, beq_iff_eq] at hc; exact hc.1.1
  have hv : ∀ v, (scaleValue s.cfg.offset v).toNat % 2 ^ s.cfg.offset = 0 := scaleValue_mod ho
  obtain ⟨k1, k2, k3⟩ := frameAllowed_fixed s.cfg
  have ks := frameAllowed_ctrl (c := s.cfg) (imgLegal_sequence hi)
  have kp : ∀ p, valuePayloadEmitted p s = true → p.toNat % 2 ^ s.cfg.offset = 0 := by
    intro p hp; obtain ⟨v, rfl⟩ := valuePayloadEmitted_iff.mp hp; exact hv v
  revert h; revert f
  cases i
  case setValue v => cases hl : s.cfg.ldacPin <;> simp [framesOf, hl, frameAllowed_dac (hv v), frameAllowed_load]
  case frameWrDac p => simp [framesOf, frameAllowed_dac (kp p he)]
  case frameWrClr p => simp [framesOf, frameAllowed_clr (kp p he)]
  case frameWrCtrl p =>
    have : p = s.img.extractLsb' 0 20 := by simpa [emits, imagePayloadEmitted] using he
    subst this; simp [framesOf, frameAllowed_ctrl hi]
  case frameWrSwctrlLdac => simpa [framesOf] using frameAllowed_load (c := s.cfg) (by simpa [emits, loadFrameEmitted] using he)
  case setClearCode v => simp [framesOf, frameAllowed_clr (hv v)]
  case updateControlRegister => simp [framesOf, frameAllowed_ctrl hi]
  case enableOutput => simpa [framesOf] using ks
  case reset => simpa [framesOf] using ks
  all_goals simp [framesOf, k1, k2, k3]

/-! The pins. -/

/-- A pin's level after one event. -/
def pinStep (p : PinId) (lvl : Option Level) (e : Event) : Option Level :=
  match e with
  | .pinWrite q l => if q = p then some l else lvl
  | .pinMode _ => lvl
  | .busInit _ _ => lvl
  | .txnBegin _ _ _ _ _ _ => lvl
  | .xfer _ _ _ => lvl
  | .txnEnd _ => lvl

theorem pinLevel_append (p : PinId) (as bs : List Event) :
    pinLevel p (as ++ bs) = bs.foldl (pinStep p) (pinLevel p as) := by
  have h : ∀ es, pinLevel p es = es.foldl (pinStep p) none := by intro es; unfold pinLevel; congr 1
  simp [h]

/-! The responder. -/

theorem bench_frameEvents (c : Cfg) (f : Frame) (i2 i1 i0 : Byte) (r : Responder) :
    (frameEvents c f i2 i1 i0).foldl (benchEvent c) ⟨r, false, []⟩ = ⟨responderFrame f r, false, []⟩ := by
  simp [frameEvents, txnBeginEvent, benchEvent, csDeassert_ne_csAssert, benchFrameEnd, frame_bytes]

theorem responderAfter_frameEvents (c : Cfg) (f : Frame) (i2 i1 i0 : Byte) (evs : List Event) (r : Responder) :
    responderAfter c (frameEvents c f i2 i1 i0 ++ evs) r = responderAfter c evs (responderFrame f r) := by
  simp [responderAfter, bench_frameEvents]

/-- A write frame at the responder: its address is the head's low bits. -/
theorem responderFrame_write (a : BitVec 3) (p : Payload) (r : Responder) :
    responderFrame (0#1 ++ a ++ p) r = { responderWrite a p r with sdoNext := 0#24 } := by
  have h1 : (0#1 ++ a ++ p : Frame).extractLsb' 20 3 = a := by
    apply BitVec.eq_of_getLsbD_eq; intro i hi
    simp only [BitVec.getLsbD_append, BitVec.getLsbD_extractLsb']
    interval_cases i <;> rfl
  have h2 : (0#1 ++ a ++ p : Frame).extractLsb' 0 20 = p := BitVec.extractLsb'_append_eq_right
  have h3 : (0#1 ++ a ++ p : Frame).getLsbD 23 = false := by
    rw [BitVec.getLsbD_append, if_neg (by decide), BitVec.getLsbD_append, if_neg (by decide)]; rfl
  unfold responderFrame
  simp only [h1, h2, h3, Bool.false_eq_true, if_false]

theorem responderFrame_load (r : Responder) :
    responderFrame 0x400001#24 r = { r with outReg := r.dacReg, sdoNext := 0#24 } := by
  simp [responderFrame, responderWrite]

theorem responderFrame_readDac (r : Responder) :
    responderFrame 0x900000#24 r = { r with sdoNext := 0x9#4 ++ r.dacReg } := by
  simp [responderFrame, responderReg]

theorem responderFrame_readCtrl (r : Responder) :
    responderFrame 0xA00000#24 r = { r with sdoNext := 0xA#4 ++ r.ctrlReg } := by
  simp [responderFrame, responderReg]

end Sys2Proof.Machine
end

