-- ==== Sys2Proof/Laws/Fields.lean ====
section
/-! SUPPORT. Reading and writing the fields of the image (10_state R32, 43_control R150): what a write does to its own field,
to another field, and after another write. -/

namespace Sys2Proof.Machine

theorem field_places_disjoint {f g : Field} (h : f ≠ g) (k : Nat) :
    ¬ ((fieldPos f ≤ k ∧ k < fieldPos f + fieldWidth f) ∧ (fieldPos g ≤ k ∧ k < fieldPos g + fieldWidth g)) := by
  cases f <;> cases g <;> first | exact absurd rfl h | (simp only [fieldPos, fieldWidth]; omega)

theorem field_place_lt (f : Field) {k : Nat} (h : k < fieldWidth f) : fieldPos f + k < 32 := by
  cases f <;> simp only [fieldPos, fieldWidth] at * <;> omega

theorem getLsbD_of_fits {f : Field} {val : BitVec 4} (hv : val.toNat < 2 ^ fieldWidth f) {k : Nat}
    (hk : fieldWidth f ≤ k) : val.getLsbD k = false := by
  rw [BitVec.getLsbD, Nat.testBit_lt_two_pow (lt_of_lt_of_le hv (Nat.pow_le_pow_right (by decide) hk))]

/-- A written field reads as the value, where the value fits it. -/
theorem fieldRead_write {f : Field} {val : BitVec 4} (hv : val.toNat < 2 ^ fieldWidth f) (img : Word) :
    fieldRead f (fieldWrite f val img) = val := by
  apply BitVec.eq_of_getLsbD_eq; intro k hk
  rw [fieldRead_getLsbD]
  by_cases h : k < fieldWidth f
  · rw [fieldWrite_getLsbD _ _ _ _ (field_place_lt f h)]; simp [h]
  · simp [h, getLsbD_of_fits hv (Nat.le_of_not_lt h)]

/-- Every other field reads as before. -/
theorem fieldRead_write_other {f g : Field} (h : g ≠ f) (val : BitVec 4) (img : Word) :
    fieldRead g (fieldWrite f val img) = fieldRead g img := by
  apply BitVec.eq_of_getLsbD_eq; intro k hk
  rw [fieldRead_getLsbD, fieldRead_getLsbD]
  by_cases hk : k < fieldWidth g
  · rw [fieldWrite_getLsbD _ _ _ _ (field_place_lt g hk)]
    rw [if_neg (fun hf => field_places_disjoint h (fieldPos g + k) ⟨⟨by omega, by omega⟩, hf⟩)]
  · simp [hk]

/-- Writing a field's own value changes nothing. -/
theorem fieldWrite_read (f : Field) (img : Word) : fieldWrite f (fieldRead f img) img = img := by
  apply BitVec.eq_of_getLsbD_eq; intro k hk
  rw [fieldWrite_getLsbD _ _ _ _ hk]
  split
  · rename_i h
    rw [fieldRead_getLsbD, show fieldPos f + (k - fieldPos f) = k by omega]
    simp [show k - fieldPos f < fieldWidth f by omega]
  · rfl

/-- The last of two writes to one field counts. -/
theorem fieldWrite_write (f : Field) (a b : BitVec 4) (img : Word) :
    fieldWrite f b (fieldWrite f a img) = fieldWrite f b img := by
  apply BitVec.eq_of_getLsbD_eq; intro k hk
  rw [fieldWrite_getLsbD _ _ _ _ hk, fieldWrite_getLsbD _ _ _ _ hk, fieldWrite_getLsbD _ _ _ _ hk]
  split <;> simp_all

end Sys2Proof.Machine
end

