-- ==== Sys2Proof/Laws/PerInstr.lean ====
section
/-! SUPPORT. Statements per instruction. Family InTableRow: the encoding of a well-formed instruction is one of the words
of its row of spec/opcode_table.json (the row's width, and the row's fixed bits). -/

namespace Sys2Proof.Laws

/-- A mask that keeps the high bits of a word only asks about them. -/
theorem mask_host_high (opc : BitVec 4) (opd : Word) : (opc ++ opd) &&& 0xF00000000#36 = opc ++ 0#32 := by
  apply BitVec.eq_of_getLsbD_eq; intro i hi
  simp only [BitVec.getLsbD_append, BitVec.getLsbD_and]
  interval_cases i <;> simp

theorem mask_frame_high (h : BitVec 4) (p : Payload) : (h ++ p) &&& 0xF00000#24 = h ++ 0#20 := by
  apply BitVec.eq_of_getLsbD_eq; intro i hi
  simp only [BitVec.getLsbD_append, BitVec.getLsbD_and]
  interval_cases i <;> simp

theorem covers_value (opc : BitVec 4) (opd : Word) :
    TableRow.covers ⟨36, 0xF00000000, (opc ++ 0#32 : HostWord).toNat⟩ (hostWord opc opd) = true := by
  simp only [TableRow.covers, hostWord, mask_host_high, BitVec.ofNat_toNat]
  simp

theorem covers_bool (opc : BitVec 4) {opd : Word} (h : boolOperandOk opd = true) :
    TableRow.covers ⟨36, 0xFFFFFFFFE, (opc ++ 0#32 : HostWord).toNat⟩ (hostWord opc opd) = true := by
  simp only [boolOperandOk, Bool.or_eq_true, beq_iff_eq] at h
  obtain ⟨n⟩ := opc
  rcases h with rfl | rfl <;> fin_cases n <;> rfl

theorem covers_none (opc : BitVec 4) {opd : Word} (h : noneOperandOk opd = true) :
    TableRow.covers ⟨36, 0xFFFFFFFFF, (opc ++ 0#32 : HostWord).toNat⟩ (hostWord opc opd) = true := by
  simp only [noneOperandOk, beq_iff_eq] at h
  obtain ⟨n⟩ := opc
  subst h; fin_cases n <;> rfl

theorem covers_frame (h : BitVec 4) (p : Payload) :
    TableRow.covers ⟨24, 0xF00000, (h ++ 0#20 : Frame).toNat⟩ (.wire (h ++ p)) = true := by
  simp only [TableRow.covers, mask_frame_high, BitVec.ofNat_toNat]
  simp

namespace InTableRow

/-- The encoding of a well-formed instruction is a word of its row. -/
def Statement (i : Instr) : Prop := i.wellFormed = true → (tableRow i).covers (encode i) = true

theorem begin (opd : Word) : Statement (.begin opd) := fun h => covers_bool 0x0#4 h

theorem setValue (opd : Word) : Statement (.setValue opd) := fun _ => covers_value 0x1#4 opd

theorem readValue (opd : Word) : Statement (.readValue opd) := fun h => covers_none 0x2#4 h

theorem setClearCode (opd : Word) : Statement (.setClearCode opd) := fun _ => covers_value 0x3#4 opd

theorem setInternalAmplifier (opd : Word) : Statement (.setInternalAmplifier opd) := fun h => covers_bool 0x4#4 h

theorem setOutputClamp (opd : Word) : Statement (.setOutputClamp opd) := fun h => covers_bool 0x5#4 h

theorem setTristateMode (opd : Word) : Statement (.setTristateMode opd) := fun h => covers_bool 0x6#4 h

theorem setOffsetBinary (opd : Word) : Statement (.setOffsetBinary opd) := fun h => covers_bool 0x7#4 h

theorem setReferenceInputRange (opd : Word) : Statement (.setReferenceInputRange opd) := fun h => covers_bool 0x8#4 h

theorem updateControlRegister (opd : Word) : Statement (.updateControlRegister opd) := fun h => covers_none 0x9#4 h

theorem enableOutput (opd : Word) : Statement (.enableOutput opd) := fun h => covers_none 0xA#4 h

theorem readControlRegister (opd : Word) : Statement (.readControlRegister opd) := fun h => covers_none 0xB#4 h

theorem reset (opd : Word) : Statement (.reset opd) := fun h => covers_none 0xC#4 h

theorem reservedD (opd : Word) : Statement (.reservedD opd) := fun _ => covers_value 0xD#4 opd

theorem reservedE (opd : Word) : Statement (.reservedE opd) := fun _ => covers_value 0xE#4 opd

theorem reservedF (opd : Word) : Statement (.reservedF opd) := fun _ => covers_value 0xF#4 opd

theorem frameWrDac (payload : Payload) : Statement (.frameWrDac payload) := fun _ => covers_frame 0x1#4 payload

theorem frameWrCtrl (payload : Payload) : Statement (.frameWrCtrl payload) := fun _ => covers_frame 0x2#4 payload

theorem frameWrClr (payload : Payload) : Statement (.frameWrClr payload) := fun _ => covers_frame 0x3#4 payload

theorem frameWrSwctrlLdac : Statement .frameWrSwctrlLdac := fun _ => by decide

theorem frameRdDac : Statement .frameRdDac := fun _ => by decide

theorem frameRdCtrl : Statement .frameRdCtrl := fun _ => by decide

theorem frameNop : Statement .frameNop := fun _ => by decide

end InTableRow

end Sys2Proof.Laws
end

