-- ==== Sys2Proof/Tests/Slice0.lean ====
section
/-! SUPPORT. Tests of the model, and a witness for the hypotheses of every statement. The expected values of the tests are those of
spec/95_test_vectors.md (named by their ids) or are worked out by hand from the tables of spec/30_encoding.md. -/

namespace Sys2Proof.Tests

open Sys2Proof Sys2Proof.Machine

/-! ### Helpers -/

/-- A block on the conventions of 95_test_vectors: chip-select is pin 5, load-strobe pin 7 where there is one. -/
def blockCfg (offset : Nat) (ldac : Bool) : Cfg where
  csPin := ⟨5⟩
  csActive := .low
  ldacPin := if ldac then some ⟨7⟩ else none
  clkHz := 1000000
  offset := offset
  bus := ⟨3⟩
  enableOutputStyle := .twoChip

/-- A block in `READY` with coming answers. -/
def ready (offset : Nat) (ldac : Bool) (img : Word) (answers : List BusReply) : State :=
  { State.initial (blockCfg offset ldac) with mode := .ready, img := img, answers := answers }

/-- A block in `UNCONFIGURED`. -/
def fresh (offset : Nat) (ldac : Bool) (answers : List BusReply) : State :=
  { State.initial (blockCfg offset ldac) with answers := answers }

/-- The answers of one whole frame that receives these bytes. -/
def good (i2 i1 i0 : Byte) : List BusReply := [.ok 0#8, .ok i2, .ok i1, .ok i0]

/-- Two whole frames; the first receives zeros. -/
def goodTwo (i2 i1 i0 : Byte) : List BusReply := good 0#8 0#8 0#8 ++ good i2 i1 i0

/-- The state after an instruction. -/
def after (i : Instr) (s : State) : Option State :=
  match exec i s with
  | .next t => some t
  | .fault _ => none
  | .refused _ => none

/-- The state after a step on a presented word. -/
def stepped (nbits w : Nat) (s : State) : Option State :=
  match step (s.withFetchWord nbits w) with
  | .next t => some t
  | .fault _ => none
  | .refused _ => none

/-- The bytes that went out. -/
def sentBytes (trace : List Event) : List Byte :=
  trace.filterMap fun e => match e with
    | .xfer _ o _ => some o
    | _ => none

/-- The pin events. -/
def pinWrites (trace : List Event) : List (PinId × Level) :=
  trace.filterMap fun e => match e with
    | .pinWrite p l => some (p, l)
    | _ => none

/-! ### Well-formedness: an ill-formed term for each check -/

theorem test_wellFormed_refuses :
    Instr.wellFormed (.begin 3#32) = false ∧ Instr.wellFormed (.readValue 1#32) = false ∧
    Instr.wellFormed (.setInternalAmplifier 2#32) = false ∧ Instr.wellFormed (.setOutputClamp 2#32) = false ∧
    Instr.wellFormed (.setTristateMode 0x80000000#32) = false ∧ Instr.wellFormed (.setOffsetBinary 3#32) = false ∧
    Instr.wellFormed (.setReferenceInputRange 2#32) = false ∧
    Instr.wellFormed (.updateControlRegister 1#32) = false ∧ Instr.wellFormed (.enableOutput 0x80000000#32) = false ∧
    Instr.wellFormed (.readControlRegister 1#32) = false ∧ Instr.wellFormed (.reset 1#32) = false := by decide

theorem test_wellFormed_accepts :
    Instr.wellFormed (.begin 1#32) = true ∧ Instr.wellFormed (.setValue 0xFFFFFFFF#32) = true ∧
    Instr.wellFormed (.setClearCode 0xFFFFFFFF#32) = true ∧ Instr.wellFormed (.reservedF 0x12345678#32) = true ∧
    Instr.wellFormed (.frameWrDac 0xFFFFF#20) = true := by decide

/-! ### Decoding: a word for every constructor, from 30_encoding R90, R93 and R96 -/

theorem test_decode_value_family :
    decodeTableWord 40 0x000000001 = some (.begin 1#32) ∧
    decodeTableWord 40 0x100001234 = some (.setValue 0x1234#32) ∧
    decodeTableWord 40 0x200000000 = some (.readValue 0#32) ∧
    decodeTableWord 40 0x300020000 = some (.setClearCode 0x20000#32) := by decide

theorem test_decode_control_family :
    decodeTableWord 40 0x400000001 = some (.setInternalAmplifier 1#32) ∧
    decodeTableWord 40 0x500000000 = some (.setOutputClamp 0#32) ∧
    decodeTableWord 40 0x600000001 = some (.setTristateMode 1#32) ∧
    decodeTableWord 40 0x700000000 = some (.setOffsetBinary 0#32) ∧
    decodeTableWord 40 0x800000001 = some (.setReferenceInputRange 1#32) ∧
    decodeTableWord 40 0x900000000 = some (.updateControlRegister 0#32) ∧
    decodeTableWord 40 0xA00000000 = some (.enableOutput 0#32) ∧
    decodeTableWord 40 0xB00000000 = some (.readControlRegister 0#32) ∧
    decodeTableWord 40 0xC00000000 = some (.reset 0#32) := by decide

theorem test_decode_reserved_family :
    decodeTableWord 40 0xD00000000 = some (.reservedD 0#32) ∧
    decodeTableWord 40 0xE00000007 = some (.reservedE 7#32) ∧
    decodeTableWord 40 0xF12345678 = some (.reservedF 0x12345678#32) := by decide

theorem test_decode_wire_family :
    decodeTableWord 24 0x1048D0 = some (.frameWrDac 0x048D0#20) ∧
    decodeTableWord 24 0x20031E = some (.frameWrCtrl 0x0031E#20) ∧
    decodeTableWord 24 0x380000 = some (.frameWrClr 0x80000#20) ∧
    decodeTableWord 24 0x400001 = some .frameWrSwctrlLdac ∧
    decodeTableWord 24 0x900000 = some .frameRdDac ∧
    decodeTableWord 24 0xA00000 = some .frameRdCtrl ∧
    decodeTableWord 24 0x000000 = some .frameNop := by decide

theorem test_decode_keeps_ill_formed_operands : decodeTableWord 40 0x500000002 = some (.setOutputClamp 2#32) := by decide

theorem test_decode_refuses_frames_never_emitted :
    decodeTableWord 24 0x000001 = none ∧ decodeTableWord 24 0x400000 = none ∧ decodeTableWord 24 0x500000 = none ∧
    decodeTableWord 24 0x900001 = none ∧ decodeTableWord 24 0xB00000 = none ∧
    decodeTableWord 40 0x1000000000 = none := by decide

/-! ### The codec: V-E1 to V-E16 -/

theorem test_encodeFrame :
    encodeFrame .write 0b001#3 0x048D0#32 = 0x1048D0#24 ∧ encodeFrame .write 0b010#3 0x31E#32 = 0x20031E#24 ∧
    encodeFrame .read 0b001#3 0#32 = 0x900000#24 ∧ encodeFrame .read 0b010#3 0#32 = 0xA00000#24 ∧
    encodeFrame .write 0b001#3 0xFFFFFFFF#32 = 0x1FFFFF#24 ∧ encodeFrame .write 0b100#3 1#32 = 0x400001#24 ∧
    encodeFrame .read 0b111#3 0xFFFFF#32 = 0xFFFFFF#24 := by decide

theorem test_serialize : serialize 0x1048D0#24 = [0x10#8, 0x48#8, 0xD0#8] := by decide

theorem test_decodeReadback : decodeReadback 0xA0001E#24 = (0x0001E#20, 0xA#4) := by decide

theorem test_scaleValue :
    [0#32, 1#32, 0x3FFFF#32, 0x40000#32, 0x40001#32, 0xFFFFFFFF#32, 0x80000000#32].map (scaleValue 2)
      = [0#20, 4#20, 0xFFFFC#20, 0#20, 4#20, 0xFFFFC#20, 0#20] ∧
    [0xFFFFF#32, 0x100000#32, 0x12345678#32].map (scaleValue 0) = [0xFFFFF#20, 0#20, 0x45678#20] := by decide

theorem test_descaleValue :
    [0xFFFFF#20, 0x00003#20, 0x048D0#20, 0x159E0#20].map (descaleValue 2) = [0x3FFFF#32, 0#32, 0x1234#32, 0x5678#32] ∧
    descaleValue 0 0xABCDE#20 = 0xABCDE#32 := by decide

/-! ### Construction and reset: 00_scope R11, 70_reset_and_hazards R210 -/

theorem test_construct_refuses :
    construct { blockCfg 1 false with clkHz := 5 } = none ∧ construct { blockCfg 2 false with clkHz := 0 } = none ∧
    construct { blockCfg 2 false with ldacPin := some ⟨5⟩ } = none := by decide

theorem test_reset_values :
    State.reset.mode = .unconfigured ∧ State.reset.img = 0x1E#32 ∧ State.reset.status = 0#4 ∧
    State.reset.lastCause = .none ∧ State.reset.terr = none ∧ State.reset.trace = [] := by decide

/-! ### `BEGIN`: V-B1 to V-B5 -/

theorem test_begin_high_active_with_pin :
    (stepped 40 0x000000000 { fresh 2 true [] with cfg := { blockCfg 2 true with csActive := .high } }).map
        (fun t => (t.trace, t.mode))
      = some ([.pinMode ⟨5⟩, .pinWrite ⟨5⟩ .low, .pinMode ⟨7⟩, .pinWrite ⟨7⟩ .low], .ready) := by decide

theorem test_begin_bus_error :
    (stepped 40 0x000000001 (fresh 2 false [.err ⟨9⟩])).map (fun t => (t.trace, t.mode, t.status, t.terr, t.lastCause))
      = some ([.pinMode ⟨5⟩, .pinWrite ⟨5⟩ .high, .busInit ⟨3⟩ (.err ⟨9⟩)], .unconfigured, 0b1000#4, some ⟨9⟩,
          .transport) := by decide

/-! ### The value commands: V-V1, V-V2, V-V6, V-V8, V-V10 to V-V13 -/

/-- One frame of V-V2, all seven events written out (40_codec R115), then the pulse. -/
theorem test_setValue_pin :
    (stepped 40 0x100001234 (ready 2 true 0x1E#32 (good 1#8 2#8 3#8))).map (fun t => (t.trace, t.lastCause))
      = some ([.txnBegin ⟨3⟩ 1000000 .msbFirst 0#1 1#1 .ok, .pinWrite ⟨5⟩ .low, .xfer ⟨3⟩ 0x10#8 (.ok 1#8),
          .xfer ⟨3⟩ 0x48#8 (.ok 2#8), .xfer ⟨3⟩ 0xD0#8 (.ok 3#8), .pinWrite ⟨5⟩ .high, .txnEnd ⟨3⟩,
          .pinWrite ⟨7⟩ .high, .pinWrite ⟨7⟩ .low], .none) := by decide

theorem test_setValue_second_frame_cut :
    (stepped 40 0x100000005 (ready 2 false 0x1E#32 (good 0#8 0#8 0#8 ++ [.ok 0#8, .ok 0#8, .err ⟨9⟩]))).map
        (fun t => (sentBytes t.trace, t.trace.length, t.status, t.terr))
      = some ([0x10#8, 0x00#8, 0x14#8, 0x40#8, 0x00#8], 13, 0b1000#4, some ⟨9⟩) := by decide

theorem test_readValue_no_offset :
    (stepped 40 0x200000000 (ready 0 false 0x1E#32 (goodTwo 0x9A#8 0xBC#8 0xDE#8))).map
        (fun t => (sentBytes t.trace, t.responses))
      = some ([0x90#8, 0#8, 0#8, 0#8, 0#8, 0#8], [⟨.none, some (0xABCDE#32, 0x9#4), 0#4⟩]) := by decide

theorem test_readValue_drops_low_bits :
    (stepped 40 0x200000000 (ready 2 false 0x1E#32 (goodTwo 0#8 0#8 3#8))).map (fun t => t.responses)
      = some [⟨.none, some (0#32, 0#4), 0#4⟩] := by decide

theorem test_setClearCode_no_commit :
    (stepped 40 0x300080000 (ready 0 false 0x1E#32 (good 0#8 0#8 0#8))).map
        (fun t => (sentBytes t.trace, t.trace.length))
      = some ([0x38#8, 0x00#8, 0x00#8], 7) := by decide

theorem test_setClearCode_no_pulse :
    (stepped 40 0x300020000 (ready 2 true 0x1E#32 (good 0#8 0#8 0#8))).map
        (fun t => (sentBytes t.trace, pinWrites t.trace))
      = some ([0x38#8, 0x00#8, 0x00#8], [(⟨5⟩, .low), (⟨5⟩, .high)]) := by decide

/-! ### The control commands: V-C1 to V-C16 -/

theorem test_setInternalAmplifier :
    (after (.setInternalAmplifier 1#32) (ready 2 false 0x1E#32 [])).map (·.img) = some 0x1C#32 ∧
    (after (.setInternalAmplifier 0#32) (ready 2 false 0x1C#32 [])).map (·.img) = some 0x1E#32 := by decide

theorem test_setOutputClamp :
    (after (.setOutputClamp 0#32) (ready 2 false 0x1E#32 [])).map (·.img) = some 0x1A#32 := by decide

theorem test_setTristateMode :
    (after (.setTristateMode 0#32) (ready 2 false 0x1E#32 [])).map (·.img) = some 0x16#32 ∧
    (after (.setTristateMode 1#32) (ready 2 false 0x12#32 [])).map (·.img) = some 0x1A#32 := by decide

theorem test_setOffsetBinary :
    (after (.setOffsetBinary 0#32) (ready 2 false 0x1E#32 [])).map (·.img) = some 0x0E#32 := by decide

theorem test_setReferenceInputRange :
    (after (.setReferenceInputRange 1#32) (ready 2 false 0x1E#32 [])).map (·.img) = some 0x31E#32 ∧
    (after (.setReferenceInputRange 0#32) (ready 2 false 0x31E#32 [])).map (·.img) = some 0x1E#32 := by decide

theorem test_updateControlRegister :
    (after (.updateControlRegister 0#32) (ready 2 false 0x31E#32 (good 0#8 0#8 0#8))).map
        (fun t => (sentBytes t.trace, t.img))
      = some ([0x20#8, 0x03#8, 0x1E#8], 0x31E#32) := by decide

theorem test_enableOutput :
    (after (.enableOutput 0#32) (ready 2 false 0x1E#32 (good 0#8 0#8 0#8))).map (fun t => (sentBytes t.trace, t.img))
      = some ([0x20#8, 0x00#8, 0x12#8], 0x12#32) := by decide

theorem test_enableOutput_failed :
    (after (.enableOutput 0#32) (ready 2 false 0x1E#32 [.err ⟨9⟩])).map (fun t => (t.trace.length, t.img, t.lastCause))
      = some (1, 0x12#32, .transport) := by decide

theorem test_reset :
    (after (.reset 0#32) (ready 2 false 0x31C#32 (good 0#8 0#8 0#8))).map (fun t => (sentBytes t.trace, t.img))
      = some ([0x20#8, 0x03#8, 0x10#8], 0x310#32) := by decide

theorem test_readControlRegister :
    (after (.readControlRegister 0#32) (ready 2 false 0x12#32 (goodTwo 0xA0#8 0x03#8 0x1E#8))).map
        (fun t => (sentBytes t.trace, t.img, t.responses))
      = some ([0xA0#8, 0#8, 0#8, 0#8, 0#8, 0#8], 0x12#32, [⟨.none, some (0x31E#32, 0xA#4), 0#4⟩]) := by decide

/-! ### Dispatch and errors: V-B5, V-V15, V-X1, V-X2, V-X4, V-C14 -/

theorem test_reserved :
    (stepped 40 0xD00000000 (ready 2 false 0x1E#32 [])).map (fun t => (t.lastCause, t.status, t.trace))
      = some (.illegalOpcode, 0b0001#4, []) ∧
    (stepped 40 0xF12345678 (fresh 2 false [])).map (·.lastCause) = some .illegalOpcode := by decide

theorem test_illegal_operand_before_not_ready :
    (stepped 40 0x200000001 (fresh 2 false [])).map (·.lastCause) = some .illegalOperand ∧
    (stepped 40 0x500000002 (ready 2 false 0x1E#32 [])).map (fun t => (t.lastCause, t.img))
      = some (.illegalOperand, 0x1E#32) := by decide

theorem test_not_ready :
    (stepped 40 0x100000005 (fresh 2 false [])).map (fun t => (t.lastCause, t.status, t.trace))
      = some (.notReady, 0b0100#4, []) := by decide

/-! ### Wire frames (log entries 5 to 7) -/

theorem test_wire_frame :
    (stepped 24 0x1048D0 (ready 2 false 0x1E#32 (good 0#8 0#8 0#8))).map (fun t => (sentBytes t.trace, t.responses))
      = some ([0x10#8, 0x48#8, 0xD0#8], []) := by decide

/-- 30_encoding R87, R96: the control frame is `IMG[19:0]`, no other. -/
theorem test_wire_control_frame :
    (stepped 24 0x20001E (ready 2 false 0x1E#32 (good 0#8 0#8 0#8))).map (fun t => sentBytes t.trace)
      = some [0x20#8, 0x00#8, 0x1E#8] ∧
    stepped 24 0x200401 (ready 2 false 0x1E#32 (good 0#8 0#8 0#8)) = none ∧
    stepped 24 0x20003E (ready 2 false 0x1E#32 (good 0#8 0#8 0#8)) = none := by decide

/-- 30_encoding R85, R86: with offset 2 the low two bits are zero. 42_value R143: no load frame where there is a pin. -/
theorem test_wire_frames_of_the_variant :
    stepped 24 0x100001 (ready 2 false 0x1E#32 (good 0#8 0#8 0#8)) = none ∧
    stepped 24 0x300002 (ready 2 false 0x1E#32 (good 0#8 0#8 0#8)) = none ∧
    (stepped 24 0x100001 (ready 0 false 0x1E#32 (good 0#8 0#8 0#8))).map (fun t => sentBytes t.trace)
      = some [0x10#8, 0x00#8, 0x01#8] ∧
    stepped 24 0x400001 (ready 2 true 0x1E#32 (good 0#8 0#8 0#8)) = none ∧
    (stepped 24 0x400001 (ready 2 false 0x1E#32 (good 0#8 0#8 0#8))).map (fun t => sentBytes t.trace)
      = some [0x40#8, 0x00#8, 0x01#8] := by decide

theorem test_wire_word_never_emitted :
    step ((ready 2 false 0x1E#32 []).withFetchWord 24 0xB00000) = .refused .frameNeverEmitted := rfl

/-! ### The responder: 20_memory R74 to R76 -/

/-- The end of P1: `DACREG` and `OUTREG` 0x048D0. -/
theorem test_responder_commit :
    (after (.setValue 0x1234#32) (ready 2 false 0x312#32 (goodTwo 0#8 0#8 0#8))).map
        (fun t => responderAfter (blockCfg 2 false) t.trace responderStart)
      = some { responderStart with dacReg := 0x048D0#20, outReg := 0x048D0#20 } := by decide

/-- A frame of two bytes leaves the responder unchanged (R75). -/
theorem test_responder_ignores_cut_frame :
    responderAfter (blockCfg 2 false) [.pinWrite ⟨5⟩ .low, .xfer ⟨3⟩ 0x10#8 (.ok 0#8), .xfer ⟨3⟩ 1#8 (.ok 0#8),
      .pinWrite ⟨5⟩ .high] responderStart = responderStart := by decide

/-! ### The assembler: 30_encoding R100 -/

theorem test_assemble :
    assemble ⟨"SET_VALUE", [.hex 0x1234]⟩ = some 0x100001234#36 ∧ assemble ⟨"BEGIN", [.wordTrue]⟩ = some 0x000000001#36 ∧
    assemble ⟨"RESET", []⟩ = some 0xC00000000#36 ∧ assemble ⟨"SET_VALUE", [.decimal 0x100000000]⟩ = none ∧
    assemble ⟨"BEGIN", [.decimal 2]⟩ = none ∧ assemble ⟨"SET_LDAC", []⟩ = none := by decide

theorem test_assembleText :
    assembleText "SET_VALUE 0x1234".toList = some 0x100001234#36 ∧ assembleText "BEGIN true".toList = some 0x000000001#36 ∧
    assembleText "ENABLE_OUTPUT".toList = some 0xA00000000#36 ∧ assembleText "SET_VALUE 4294967295".toList = some 0x1FFFFFFFF#36 ∧
    assembleText "SET_VALUE 12a".toList = none ∧ assembleText "RESET 0".toList = none ∧ assembleText "SET_VALUE 0x".toList = none := by
  decide

/-! ### Witnesses: a state and operands that meet a statement's hypotheses -/

theorem witness_StepRunsTheDecodedWord :
    State.reset.requests = [] ∧
    ((ready 2 false 0x1E#32 []).withFetchWord 40 0x100001234).requests = [.host 0x100001234#36] ∧
    decode (.host 0x100001234#36) = .ok (.setValue 0x1234#32) ∧
    (State.reset.withFetchWord 24 0xB00000).requests = [.wire 0xB00000#24] ∧
    decode (.wire 0xB00000#24) = .error .frameNeverEmitted := by decide

theorem witness_PresentedTableWordRunsNext :
    decodeTableWord 24 0 = some .frameNop ∧ decodeTableWord 25 0 = some (.begin 0#32) ∧
    decodeTableWord 36 0xFFFFFFFFF = some (.reservedF 0xFFFFFFFF#32) := by decide

theorem witness_ConstructionGivesResetValues :
    construct (blockCfg 0 true) = some (State.initial (blockCfg 0 true)) := by decide

theorem witness_offsets : valueBits 0 = 20 ∧ valueBits 2 = 18 ∧ valueMask 2 = 0x3FFFF#32 ∧ valueMask 0 = 0xFFFFF#32 := by
  decide

theorem witness_ValueCommandsTruncateSilently :
    let s := ready 2 false 0x1E#32 (goodTwo 0#8 0#8 0#8)
    s.cfg.offset = 2 ∧ s.mode = .ready ∧ (upcoming 8 s).all replyOk = true ∧
    (∃ t, exec (.setValue 0xFFFFFFFF#32) s = .next t) ∧ ∃ t, exec (.setClearCode 0xFFFFFFFF#32) s = .next t :=
  ⟨rfl, rfl, rfl, ⟨_, rfl⟩, ⟨_, rfl⟩⟩

theorem witness_FieldWriteChangesOneField :
    (0b0001#4).toNat < 2 ^ fieldWidth .rbuf ∧ (0b0001#4).toNat < 2 ^ fieldWidth .sdodis ∧
    (0b1111#4).toNat < 2 ^ fieldWidth .lincomp ∧ Field.rbuf ≠ .lincomp := by decide

theorem witness_SettersWriteTheirFieldAlone : (ready 2 false 0x1E#32 []).mode = .ready := rfl

theorem witness_SetterAlgebraHolds :
    setterOf .dactri true = some (.setTristateMode 1#32) ∧ setterOf .dactri false = some (.setTristateMode 0#32) ∧
    setterOf .lincomp true = some (.setReferenceInputRange 1#32) ∧ Field.dactri ≠ .lincomp ∧
    (ready 2 false 0x12#32 []).mode = .ready := by decide

theorem witness_EachInstructionWritesItsFieldsAlone :
    (∃ t, exec (.reset 0#32) (ready 2 false 0x1E#32 (good 0#8 0#8 0#8)) = .next t) ∧
    fieldWrittenBy (.reset 0#32) .opgnd = some 0#4 ∧ fieldWrittenBy (.reset 0#32) .rbuf = none :=
  ⟨⟨_, rfl⟩, rfl, rfl⟩

theorem witness_FieldsHoldTheirLastWrite :
    (runAll [.begin 0#32, .setTristateMode 0#32, .setTristateMode 1#32, .setOutputClamp 0#32]
      { State.initial (blockCfg 2 false) with answers := [] }).map (·.img) = some 0x1A#32 := by decide

theorem witness_OnlySettersAndSequencesWriteTheImage :
    (∃ t, exec (.setOutputClamp 0#32) (ready 2 false 0x1E#32 []) = .next t ∧ t.img ≠ 0x1E#32) ∧
    ∃ t, exec (.enableOutput 0#32) (ready 2 false 0x1E#32 [.err ⟨9⟩]) = .next t ∧ t.img ≠ 0x1E#32 :=
  ⟨⟨_, rfl, by decide⟩, ⟨_, rfl, by decide⟩⟩

theorem witness_ImageStaysLegal :
    (imgLegal 0x1E#32 ∧ imgLegal 0x31E#32 ∧ imgLegal 0#32 ∧ ¬ imgLegal 0x3E#32) ∧
    ∃ t, step ((ready 2 false 0x1E#32 []).withFetchWord 40 0x800000001) = .next t :=
  ⟨by decide, ⟨_, rfl⟩⟩

theorem witness_BeginCompletes : upcoming 1 (fresh 2 false [.ok 4#8]) = [.ok 4#8] := rfl

theorem witness_BeginFailureKeepsTheMode : upcoming 1 (fresh 2 false [.err ⟨9⟩]) = [.err ⟨9⟩] := rfl

theorem witness_BeginIsIdempotent :
    ∃ t u, exec (.begin 1#32) (fresh 2 true [.ok 0#8, .ok 1#8]) = .next t ∧ exec (.begin 1#32) t = .next u ∧
      ((1#32 : Word) = 1#32 →
        (upcoming 1 t).map replyAck = (upcoming 1 (fresh 2 true [.ok 0#8, .ok 1#8])).map replyAck) :=
  ⟨_, _, rfl, rfl, fun _ => rfl⟩

theorem witness_SetValueCompletesWithPinPulse :
    let s := ready 2 true 0x1E#32 (good 1#8 2#8 3#8)
    s.mode = .ready ∧ s.cfg.ldacPin = some ⟨7⟩ ∧ upcoming 4 s = [.ok 0#8, .ok 1#8, .ok 2#8, .ok 3#8] := by decide

/-- Also for the two reads, which have no premise on the load-strobe pin. -/
theorem witness_SetValueCompletesWithLoadFrame :
    let s := ready 0 false 0x1E#32 (goodTwo 1#8 2#8 3#8)
    s.mode = .ready ∧ s.cfg.ldacPin = none ∧
    upcoming 8 s = [.ok 0#8, .ok 0#8, .ok 0#8, .ok 0#8, .ok 0#8, .ok 1#8, .ok 2#8, .ok 3#8] := by decide

theorem witness_ReadsComplete :
    let s := ready 2 true 0x12#32 (goodTwo 0x9F#8 0xFF#8 0xFF#8)
    s.mode = .ready ∧
    upcoming 8 s = [.ok 0#8, .ok 0#8, .ok 0#8, .ok 0#8, .ok 0#8, .ok 0x9F#8, .ok 0xFF#8, .ok 0xFF#8] := by decide

/-- For `SET_CLEAR_CODE`, `UPDATE_CONTROL_REGISTER`, `ENABLE_OUTPUT`, `RESET` and the wire frames, the load frame too. -/
theorem witness_OneFrameCommandsComplete :
    let s := ready 2 false 0x31E#32 (good 0#8 0#8 0#8)
    s.mode = .ready ∧ upcoming 4 s = [.ok 0#8, .ok 0#8, .ok 0#8, .ok 0#8] ∧ s.cfg.ldacPin = none ∧
    (Instr.frameNop, 0x000000#24) ∈ [(Instr.frameRdCtrl, 0xA00000#24), (.frameNop, 0x000000#24)] := by decide

/-- Each of the three reasons, beside a frame that is sent: the lowest bit below the offset, one bit of the image, a pin. -/
theorem witness_WireFramesNeverEmittedAreRefused :
    let s := ready 2 true 0x1E#32 []
    s.mode = .ready ∧ Instr.isFrame (.frameWrDac 1#20) = true ∧
    valuePayloadEmitted 1#20 s = false ∧ valuePayloadEmitted 4#20 s = true ∧
    (0x0001F#20 : Payload) ≠ s.img.extractLsb' 0 20 ∧ (0x0001E#20 : Payload) = s.img.extractLsb' 0 20 ∧
    s.cfg.ldacPin ≠ none := by decide

theorem witness_ReservedOpcodesFail :
    Instr.isReserved (.reservedD 0#32) = true ∧ Instr.isReserved (.reservedE 1#32) = true ∧
    Instr.isReserved (.reservedF 0xFFFFFFFF#32) = true := by decide

theorem witness_IllegalOperandsFail :
    Instr.wellFormed (.begin 2#32) = false ∧ Instr.wellFormed (.reset 0x80000000#32) = false := by decide

theorem witness_CommandsBeforeBeginFail :
    Instr.isHostCommand (.setValue 5#32) = true ∧ Instr.wellFormed (.setValue 5#32) = true ∧
    (∀ opd, Instr.setValue 5#32 ≠ .begin opd) ∧ State.reset.mode = .unconfigured :=
  ⟨rfl, rfl, fun _ h => (by cases h), rfl⟩

theorem witness_WireFramesBeforeBeginFail :
    Instr.isFrame .frameNop = true ∧ Instr.isFrame (.frameWrClr 0#20) = true ∧ State.reset.mode = .unconfigured := by decide

/-- A first error at each of the four calls of a frame. -/
theorem witness_TxFrameAnswersEveryWay :
    endsAtFirstError (upcoming 1 (ready 2 false 0x1E#32 [.err ⟨9⟩])) ⟨9⟩ ∧
    endsAtFirstError (upcoming 2 (ready 2 false 0x1E#32 [.ok 0#8, .err ⟨9⟩])) ⟨9⟩ ∧
    endsAtFirstError (upcoming 3 (ready 2 false 0x1E#32 [.ok 0#8, .ok 1#8, .err ⟨9⟩])) ⟨9⟩ ∧
    endsAtFirstError (upcoming 4 (ready 2 false 0x1E#32 [.ok 0#8, .ok 1#8, .ok 2#8, .err ⟨9⟩])) ⟨9⟩ ∧
    upcoming 4 (ready 2 false 0x1E#32 (good 1#8 2#8 3#8)) = [.ok 0#8, .ok 1#8, .ok 2#8, .ok 3#8] :=
  ⟨⟨[], rfl, rfl⟩, ⟨[.ok 0#8], rfl, rfl⟩, ⟨[.ok 0#8, .ok 1#8], rfl, rfl⟩, ⟨[.ok 0#8, .ok 1#8, .ok 2#8], rfl, rfl⟩, rfl⟩

/-- For the one-frame commands, the wire frames and the two sequences: `READY` and a first error. -/
theorem witness_CommandsFailOnTheBus :
    let s := ready 2 true 0x1E#32 [.ok 0#8, .ok 1#8, .ok 2#8, .err ⟨9⟩]
    s.mode = .ready ∧ endsAtFirstError (upcoming 4 s) ⟨9⟩ ∧
    (Instr.frameRdDac = .frameWrSwctrlLdac → s.cfg.ldacPin = none) :=
  ⟨rfl, ⟨[.ok 0#8, .ok 1#8, .ok 2#8], rfl, rfl⟩, by decide⟩

theorem witness_SecondFrameFailureKeepsTheFirst :
    let s := ready 2 false 0x1E#32 (good 1#8 2#8 3#8 ++ [.err ⟨9⟩])
    s.mode = .ready ∧ upcoming 4 s = [.ok 0#8, .ok 1#8, .ok 2#8, .ok 3#8] ∧
    endsAtFirstError (upcoming 1 (afterDraws 4 s)) ⟨9⟩ ∧
    (∀ w, Instr.setValue 5#32 = .setValue w → s.cfg.ldacPin = none) :=
  ⟨rfl, rfl, ⟨[], rfl, rfl⟩, fun _ _ => rfl⟩

/-- An instruction that completes and one that fails on the bus, as the statements about every instruction ask. -/
theorem witness_InstructionsAnswer :
    (∃ t, exec (.readValue 0#32) (ready 2 false 0x1E#32 (goodTwo 0x90#8 0#8 0#8)) = .next t ∧ t.lastCause = .none) ∧
    (∃ t, exec (.readValue 0#32) (ready 2 false 0x1E#32 [.err ⟨9⟩]) = .next t ∧ t.lastCause = .transport ∧
      t.terr ≠ none) ∧
    Instr.isFrame (.readValue 0#32) = false :=
  ⟨⟨_, rfl, rfl⟩, ⟨_, rfl, rfl, by decide⟩, rfl⟩

theorem witness_ReadyIsEnteredByBeginAndNeverLeft :
    ∃ t, step ((fresh 2 true []).withFetchWord 40 0) = .next t ∧ (fresh 2 true []).mode = .unconfigured ∧
      t.mode = .ready := ⟨_, rfl, rfl, rfl⟩

theorem witness_InstructionsLeaveTheRestUnchanged :
    (∀ opd, Instr.reset 0#32 ≠ .begin opd) ∧ setterOf .opgnd true = some (.setOutputClamp 1#32) ∧
    Field.rbuf ≠ .opgnd ∧ Field.rbuf ≠ .dactri ∧ Field.sdodis ≠ .opgnd ∧ Field.sdodis ≠ .dactri :=
  ⟨fun _ h => (by cases h), rfl, by decide, by decide, by decide, by decide⟩

theorem witness_RefusedCommandsAreExact :
    (∃ t, exec (.reservedD 0#32) (ready 2 false 0x1E#32 []) = .next t ∧ t.lastCause = .illegalOpcode) ∧
    (∃ t, exec (.begin 2#32) (fresh 2 false []) = .next t ∧ t.lastCause = .illegalOperand) ∧
    ∃ t, exec (.reset 0#32) (fresh 2 false []) = .next t ∧ t.lastCause = .notReady :=
  ⟨⟨_, rfl, rfl⟩, ⟨_, rfl, rfl⟩, ⟨_, rfl, rfl⟩⟩

theorem witness_NoFrameLeavesBeforeReady :
    ∃ t, step ((fresh 2 false [.ok 0#8]).withFetchWord 40 1) = .next t ∧ t.trace.length = 3 := ⟨_, rfl, rfl⟩

theorem witness_BusDisciplineIsKept :
    let s := ready 2 false 0x1E#32 [.ok 0#8, .err ⟨9⟩]
    cfgAccepted s.cfg = true ∧ imgLegal s.img ∧ busDisciplined s ∧
    ∃ t, step (s.withFetchWord 40 0x900000000) = .next t :=
  ⟨by decide, by decide, rfl, ⟨_, rfl⟩⟩

/-- What the discipline lets out: not SDO-disable (R223), not the load frame where there is a pin. -/
theorem test_frameAllowed :
    frameAllowed (blockCfg 2 false) 0x20031E#24 = true ∧ frameAllowed (blockCfg 2 false) 0x200020#24 = false ∧
    frameAllowed (blockCfg 2 false) 0x100001#24 = false ∧ frameAllowed (blockCfg 0 false) 0x100001#24 = true ∧
    frameAllowed (blockCfg 2 true) 0x400001#24 = false ∧ frameAllowed (blockCfg 2 true) 0xB00000#24 = false := by decide

theorem witness_PinsRestBetweenCommands :
    let s : State := { ready 2 true 0x1E#32 [.ok 0#8, .err ⟨9⟩] with
      trace := [.pinMode ⟨5⟩, .pinWrite ⟨5⟩ .high, .pinMode ⟨7⟩, .pinWrite ⟨7⟩ .low] }
    cfgAccepted s.cfg = true ∧ pinsAtRest s ∧ ∃ t, step (s.withFetchWord 40 0x100000005) = .next t :=
  ⟨by decide, fun _ => ⟨rfl, fun p h => by cases h; rfl⟩, ⟨_, rfl⟩⟩

theorem witness_CommittedValueReachesTheOutput :
    (∃ t, exec (.setValue 0x1234#32) (ready 2 false 0x1E#32 (goodTwo 0#8 0#8 0#8)) = .next t ∧ t.lastCause = .none) ∧
    (∃ t, exec (.setValue 0x1234#32) (ready 2 true 0x1E#32 (good 0#8 0#8 0#8)) = .next t ∧ t.lastCause = .none) ∧
    cfgAccepted (blockCfg 2 false) = true ∧ cfgAccepted (blockCfg 2 true) = true :=
  ⟨⟨_, rfl, rfl⟩, ⟨_, rfl, rfl⟩, by decide, by decide⟩

theorem witness_SetValueThenReadValueReturnsIt :
    let r : Responder := { responderStart with dacReg := 0x048D0#20, outReg := 0x048D0#20 }
    let s := ready 2 false 0x1E#32
      (goodTwo 0#8 0#8 0#8 ++ responderAnswers [0x900000#24, 0x000000#24] r)
    ∃ t u evs, exec (.setValue 0x1234#32) s = .next t ∧ t.lastCause = .none ∧ t.trace = s.trace ++ evs ∧
      t.answers = responderAnswers [0x900000#24, 0x000000#24] (responderAfter s.cfg evs responderStart) ++ [] ∧
      exec (.readValue 0#32) t = .next u := by
  refine ⟨_, _, _, rfl, rfl, rfl, ?_, rfl⟩
  decide

theorem witness_ControlReadFollowsTheLastWriteBack :
    let s := ready 2 false 0x12#32 (responderAnswers [0xA00000#24, 0x000000#24] responderStart ++ [])
    s.mode = .ready ∧ (∃ u, exec (.readControlRegister 0#32) s = .next u ∧ u.lastCause = .none) ∧
    ∃ t, exec (.updateControlRegister 0#32) s = .next t ∧ t.lastCause = .none :=
  ⟨rfl, ⟨_, rfl, rfl⟩, ⟨_, rfl, rfl⟩⟩

theorem witness_AssemblerWritesTheLegalCommands :
    assemble ⟨"SET_VALUE", [.decimal 0xFFFFFFFF]⟩ = some 0x1FFFFFFFF#36 ∧ (0xFFFFFFFF : Nat) < 2 ^ 32 ∧
    ("RESET", 0xC#4) ∈ [("READ_CONTROL_REGISTER", 0xB#4), ("RESET", 0xC#4)] ∧
    [AsmOperand.hex 1] ∉ [[.decimal 0], [.decimal 1], [.wordFalse], [.wordTrue]] ∧
    "SET_LDAC" ∉ ["SET_VALUE", "RESET"] ∧
    Instr.isHostCommand (.reset 0#32) = true ∧ Instr.wellFormed (.reset 0#32) = true := by decide

end Sys2Proof.Tests
end

