-- ==== Sys2Proof/Proofs/Scope.lean ====
section
/-! Construction: the acceptance check as a proposition, and what construction refuses (00_scope R11). -/

namespace Sys2Proof.Machine

theorem cfgAccepted_iff {c : Cfg} :
    cfgAccepted c = true ↔ (c.offset = 0 ∨ c.offset = 2) ∧ c.clkHz ≠ 0 ∧ c.ldacPin ≠ some c.csPin := by
  simp [cfgAccepted, and_assoc]

theorem construct_eq_none_iff {c : Cfg} : construct c = none ↔ ¬ cfgAccepted c = true := by
  simp [construct]

/-- Settles O7: construction refuses where the check fails, and the three grounds of R11 are the negations of the
check's three conjuncts. -/
theorem constructionRefusesBadConfigurations : Obligations.ConstructionRefusesBadConfigurations := by
  intro c
  rw [construct_eq_none_iff, cfgAccepted_iff, not_and_or, not_and_or, not_or, not_ne_iff, not_ne_iff]

end Sys2Proof.Machine
end

