-- ==== Sys2Proof/Proofs/Image.lean ====
section
/-! The image by its fields (10_state R32, R35): a field write outside its mask, the fields that an instruction writes, and
the fields after a run. -/

namespace Sys2Proof.Machine

/-! ### One field write -/

/-- A value that fits its field needs no masking (10_state R32). -/
theorem fieldWrite_of_fits {f : Field} {val : BitVec 4} (hv : val.toNat < 2 ^ fieldWidth f) (img : Word) :
    fieldWrite f val img = (img &&& ~~~ fieldMask f) ||| (val.setWidth 32 <<< fieldPos f) := by
  have hmask : (val.setWidth 32 <<< fieldPos f) &&& fieldMask f = val.setWidth 32 <<< fieldPos f := by
    apply BitVec.eq_of_getLsbD_eq; intro k hk
    simp only [BitVec.getLsbD_and, fieldMask_getLsbD, BitVec.getLsbD_shiftLeft, BitVec.getLsbD_setWidth]
    by_cases hlow : k < fieldPos f
    · simp [hlow]
    · by_cases hhigh : k < fieldPos f + fieldWidth f
      · simp [Nat.le_of_not_lt hlow, hhigh]
      · simp [getLsbD_of_fits hv (show fieldWidth f ≤ k - fieldPos f by omega)]
  rw [fieldWrite, hmask]

/-- Outside the mask nothing changes. -/
theorem fieldWrite_and_not_mask (f : Field) (val : BitVec 4) (img : Word) :
    fieldWrite f val img &&& ~~~ fieldMask f = img &&& ~~~ fieldMask f := by
  rw [fieldWrite, BitVec.and_or_distrib_right, BitVec.and_assoc, BitVec.and_self, BitVec.and_assoc,
    BitVec.and_not_self]
  simp

/-- Settles O16: a value that fits needs no masking, and the field manager's laws of reading and writing hold bit by
bit. -/
theorem fieldWriteChangesOneField : Obligations.FieldWriteChangesOneField := by
  exact ⟨fun f val img hv => ⟨fieldWrite_of_fits hv img, fieldRead_write hv img⟩,
    fun f val img => ⟨fieldWrite_and_not_mask f val img, fun g hg => fieldRead_write_other hg val img⟩, rfl, rfl⟩

/-! ### The fields an instruction writes -/

/-- Every field after one field was written. -/
theorem fieldRead_fieldWrite {g : Field} {val : BitVec 4} (hv : val.toNat < 2 ^ fieldWidth g) (f : Field) (img : Word) :
    fieldRead f (fieldWrite g val img) = if f = g then val else fieldRead f img := by
  split
  · next h => rw [h, fieldRead_write hv]
  · next h => rw [fieldRead_write_other h]

theorem fieldBit_fits (f : Field) (b : Bool) : (fieldBit b).toNat < 2 ^ fieldWidth f := by
  cases f <;> cases b <;> decide

theorem rangeCode_fits (b : Bool) : (rangeCode b).toNat < 2 ^ fieldWidth .lincomp := by
  cases b <;> decide

/-- The image that a well-formed instruction leaves, field by field (10_state R30, column "written by"). -/
theorem fieldRead_imageOf {i : Instr} (hw : i.wellFormed = true) (f : Field) (img : Word) :
    fieldRead f (imageOf i img) = (fieldWrittenBy i f).getD (fieldRead f img) := by
  cases i
  case setInternalAmplifier opd | setOutputClamp opd | setTristateMode opd | setOffsetBinary opd =>
    rw [imageOf, fieldRead_fieldWrite (fieldBit_fits _ _), operandBool_eq hw]
    cases f <;> simp [fieldWrittenBy, fieldBit]
  case setReferenceInputRange opd =>
    rw [imageOf, fieldRead_fieldWrite (rangeCode_fits _), operandBool_eq hw]
    cases f <;> simp [fieldWrittenBy, rangeCode]
  case enableOutput | reset =>
    rw [imageOf, fieldRead_fieldWrite (by decide), fieldRead_fieldWrite (by decide)]
    cases f <;> rfl
  all_goals rfl

/-- One step of the union property (10_state R35). -/
theorem fieldRead_of_exec {i : Instr} {s t : State} (h : exec i s = .next t) (f : Field) :
    fieldRead f t.img =
      if s.mode = .ready ∧ i.wellFormed = true then (fieldWrittenBy i f).getD (fieldRead f s.img)
      else fieldRead f s.img := by
  rw [exec_img h]
  split
  · next hrun => exact fieldRead_imageOf hrun.2 f s.img
  · rfl

/-! ### The fields after a run -/

theorem runAll_cons {i : Instr} {is : List Instr} {s t : State} (h : runAll (i :: is) s = some t) :
    ∃ u, exec i s = .next u ∧ runAll is u = some t := by
  rw [runAll] at h
  cases he : exec i s with
  | next u => rw [he] at h; exact ⟨u, rfl, h⟩
  | fault x => cases x
  | refused r => rw [he] at h; cases h

theorem lastFieldWrite_cons {i : Instr} {s u : State} (h : exec i s = .next u) (f : Field) (is : List Instr) :
    lastFieldWrite f (i :: is) s (fieldRead f s.img) = lastFieldWrite f is u (fieldRead f u.img) := by
  rw [lastFieldWrite, fieldRead_of_exec h, h]

/-- The union property from any state: the history's account of a field starts at what the field holds. -/
theorem fieldRead_of_runAll {is : List Instr} {s t : State} (h : runAll is s = some t) (f : Field) :
    fieldRead f t.img = lastFieldWrite f is s (fieldRead f s.img) := by
  induction is generalizing s with
  | nil => cases h; rfl
  | cons i is ih =>
    obtain ⟨u, hu, hrest⟩ := runAll_cons h
    rw [lastFieldWrite_cons hu, ih hrest]

theorem fieldRead_initial (f : Field) (c : Cfg) : fieldRead f (State.initial c).img = fieldResetValue f := by
  rw [initial_img]; cases f <;> rfl

/-- Settles O20: the union property from any state, and the reset image holds the reset values. -/
theorem fieldsHoldTheirLastWrite : Obligations.FieldsHoldTheirLastWrite := by
  intro c answers is t f h
  rw [fieldRead_of_runAll h, ← fieldRead_initial f c]

end Sys2Proof.Machine
end

