-- ==== Sys2Proof/Proofs/Status.lean ====
section
/-! What an instruction leaves in `MODE`, `STATUS`, `LAST_CAUSE` and `TERR` (10_state R28, R38 to R40), said once as the
account of its end, and the rules that follow from it. -/

namespace Sys2Proof.Machine

/-! ### The mode -/

/-- The mode moves only where a `BEGIN` completes. -/
theorem exec_mode {i : Instr} {s t : State} (h : exec i s = .next t) :
    t.mode = s.mode ∨
    (t.mode = .ready ∧ t.lastCause = .none ∧ ∃ opd, i = .begin opd ∧ (Instr.begin opd).wellFormed = true) := by
  rcases exec_summary h with ⟨c, rfl, _⟩ | ⟨opd, hi, hw, hb⟩ | ⟨_, _, _, _, _, n, evs, _, hend⟩
  · exact .inl rfl
  · rcases hb with ⟨_, rfl⟩ | ⟨_, _, _, rfl⟩ | ⟨_, e, _, rfl⟩
    · exact .inr ⟨rfl, rfl, opd, hi, hw⟩
    · exact .inr ⟨rfl, rfl, opd, hi, hw⟩
    · exact .inl (by simp [afterDraws_eq])
  · rcases hend with ⟨_, _, _, rfl⟩ | ⟨_, rfl⟩ | ⟨e, rfl⟩ <;> exact .inl (by simp [afterDraws_eq])

/-- Every other row of the opcode table is another constructor (30_encoding R90). -/
theorem hostInstr_eq_begin {opc : BitVec 4} {opd opd' : Word} (h : hostInstr opc opd = .begin opd') :
    opc = 0x0#4 ∧ opd = opd' := by
  simpa only [hostInstr, ite_eq_iff, reduceCtorEq, and_false, or_false, Instr.begin.injEq] using h

theorem decodeWire_ne_begin (f : Frame) (opd : Word) : decodeWire f ≠ .ok (.begin opd) := by
  unfold decodeWire
  split_ifs <;> simp

/-- The word of a `BEGIN` is its encoding. -/
theorem eq_encode_of_decode_begin {w : CommandWord} {opd : Word} (h : decode w = .ok (.begin opd)) :
    w = encode (.begin opd) := by
  cases w with
  | host cw =>
    obtain ⟨hopc, hopd⟩ := hostInstr_eq_begin (Except.ok.inj h)
    rw [encode, hostWord, ← hopc, ← hopd, hostWord_parts]
  | wire f => exact absurd h (decodeWire_ne_begin f opd)

/-- Settles O47: a step idles or runs the next word, and of all words only a completed `BEGIN` moves the mode. -/
theorem readyIsEnteredByBeginAndNeverLeft : Obligations.ReadyIsEnteredByBeginAndNeverLeft := by
  intro s t h
  rcases step_next h with ⟨_, rfl⟩ | ⟨w, rest, i, hreq, hdec, hexec⟩
  · exact ⟨id, fun hs ht => by simp [hs] at ht, initial_mode⟩
  · rcases exec_mode hexec with hm | ⟨hm, hc, opd, rfl, hw⟩
    · exact ⟨hm.trans, fun hs ht => by simp [hm, hs] at ht, initial_mode⟩
    · exact ⟨fun _ => hm, fun _ _ => ⟨opd, rest, by rw [hreq, eq_encode_of_decode_begin hdec], hw, hc⟩, initial_mode⟩

/-! ### The end of an instruction -/

/-- How an instruction ends, as the registers of the exceptions tell it. -/
inductive Accounted (i : Instr) (s t : State) : Prop where
  /-- A wire frame went out: it ends no command and moves none of the three. -/
  | silent (hi : i.isFrame = true) (hstatus : t.status = s.status) (hcause : t.lastCause = s.lastCause)
      (hterr : t.terr = s.terr)
  /-- It completed, or was turned away, with a cause that is none of the transport's. -/
  | closed (hc : t.lastCause ≠ .transport) (hstatus : t.status = raiseFlag t.lastCause s.status)
      (hterr : t.terr = s.terr)
  /-- A transport call answered an error. -/
  | raised (n : Nat) (e : TransportError) (hfirst : endsAtFirstError (upcoming n s) e)
      (hcause : t.lastCause = .transport) (hstatus : t.status = raiseFlag .transport s.status) (hterr : t.terr = some e)

@[simp] theorem raiseFlag_none (status : BitVec 4) : raiseFlag .none status = status := BitVec.or_zero

theorem accounted_fail {c : Cause} (hc : c ≠ .transport) (i : Instr) (s : State) : Accounted i s (fail c s) :=
  .closed hc rfl rfl

/-- Sending frames moves neither `STATUS` nor `LAST_CAUSE` nor `TERR`. -/
theorem sendFrames_registers {fs : List Frame} {s s' : State} {r : Option TransportError}
    (h : sendFrames fs s = (r, s')) : s'.status = s.status ∧ s'.lastCause = s.lastCause ∧ s'.terr = s.terr := by
  obtain ⟨n, evs, _, _, hs, _⟩ := sendFrames_effect fs s
  rw [h] at hs
  subst hs
  simp [afterDraws_eq]

/-- Sending fails with the first error that the transport answers. -/
theorem sendFrames_error {fs : List Frame} {s s' : State} {e : TransportError}
    (h : sendFrames fs s = (some e, s')) : ∃ n, endsAtFirstError (upcoming n s) e := by
  obtain ⟨n, _, _, _, _, ⟨hnone, _⟩ | ⟨e', hsome, hfirst⟩⟩ := sendFrames_effect fs s
  · rw [h] at hnone; cases hnone
  · rw [h] at hsome; cases hsome; exact ⟨n, hfirst⟩

theorem upcoming_img (n : Nat) (img : Word) (s : State) : upcoming n { s with img := img } = upcoming n s :=
  upcoming_congr n rfl rfl

theorem accounted_of_ran {i : Instr} {s t : State} (h : Ran i s t) : Accounted i s t := by
  rcases h with ⟨s', res, _, hs, _, rfl⟩ | ⟨hi, hs⟩ | ⟨s', e, hs, rfl⟩
  · obtain ⟨hstatus, _, hterr⟩ := sendFrames_registers hs
    exact .closed (by simp) (by simpa using hstatus) (by simpa using hterr)
  · obtain ⟨hstatus, hcause, hterr⟩ := sendFrames_registers hs
    exact .silent hi hstatus hcause hterr
  · obtain ⟨hstatus, _, _⟩ := sendFrames_registers hs
    obtain ⟨n, hfirst⟩ := sendFrames_error hs
    rw [upcoming_img] at hfirst
    exact .raised n e hfirst rfl (by simp [hstatus]) rfl

theorem accounted_of_began {opd : Word} {s t : State} (h : Began opd s t) : Accounted (.begin opd) s t := by
  rcases h with ⟨_, rfl⟩ | ⟨_, _, _, rfl⟩ | ⟨_, e, hd, rfl⟩
  · exact .closed (by simp) (by simp) rfl
  · exact .closed (by simp) (by simp [afterDraws_eq]) (by simp [afterDraws_eq])
  · exact .raised 1 e ⟨[], by simp [upcoming, hd], rfl⟩ rfl (by simp [afterDraws_eq]) rfl

/-- The account of every instruction's end. -/
theorem exec_accounted {i : Instr} {s t : State} (h : exec i s = .next t) : Accounted i s t := by
  rcases exec_cases h with ⟨_, rfl⟩ | ⟨_, rfl⟩ | ⟨_, _, _, _, rfl⟩ | ⟨_, _, _, _, _, hran⟩ | ⟨opd, rfl, _, hbegan⟩
  · exact accounted_fail (by simp) i s
  · exact accounted_fail (by simp) i s
  · exact accounted_fail (by simp) i s
  · exact accounted_of_ran hran
  · exact accounted_of_began hbegan

/-! ### The sticky flags -/

/-- A command raises the flag of the cause it ends with. -/
theorem status_of_exec_command {i : Instr} {s t : State} (h : exec i s = .next t) (hi : i.isFrame = false) :
    t.status = raiseFlag t.lastCause s.status := by
  rcases exec_accounted h with ⟨hf, _, _, _⟩ | ⟨_, hstatus, _⟩ | ⟨_, _, _, hcause, hstatus, _⟩
  · simp [hi] at hf
  · exact hstatus
  · rw [hstatus, hcause]

/-- An instruction leaves the flags, or raises that of the cause it ends with. -/
theorem status_of_exec {i : Instr} {s t : State} (h : exec i s = .next t) :
    t.status = s.status ∨ t.status = raiseFlag t.lastCause s.status := by
  rcases exec_accounted h with ⟨_, hstatus, _, _⟩ | ⟨_, hstatus, _⟩ | ⟨_, _, _, hcause, hstatus, _⟩
  · exact .inl hstatus
  · exact .inr hstatus
  · exact .inr (by rw [hstatus, hcause])

theorem and_raiseFlag (c : Cause) (status : BitVec 4) : status &&& raiseFlag c status = status := by
  apply BitVec.eq_of_getLsbD_eq; intro k _
  simp only [raiseFlag, BitVec.getLsbD_and, BitVec.getLsbD_or]
  cases status.getLsbD k <;> rfl

/-- Settles O48: a command raises the flag of its cause, whose row of R191's table is looked up, and raising a flag
keeps every other. -/
theorem statusFlagsAreSticky : Obligations.StatusFlagsAreSticky := by
  refine ⟨fun i s t h hi => ?_, fun i s t h => ?_, initial_status⟩
  · refine ⟨causeCode t.lastCause, causeFlag t.lastCause, rfl, status_of_exec_command h hi, ?_⟩
    cases t.lastCause <;> decide
  · rcases status_of_exec h with hs | hs
    · rw [hs, BitVec.and_self]
    · rw [hs, and_raiseFlag]

/-! ### The transport's error -/

/-- Settles O50: of the three accounts only the raised one writes `TERR`, and of a command only that one ends with
`TRANSPORT`. -/
theorem onlyTransportCausesWriteTheError : Obligations.OnlyTransportCausesWriteTheError := by
  refine ⟨initial_terr, fun i s t h hne => ?_, fun i s t h hi hc => ?_⟩
  · rcases exec_accounted h with ⟨_, _, _, hterr⟩ | ⟨_, _, hterr⟩ | ⟨_, _, _, hcause, _, _⟩
    · exact absurd hterr hne
    · exact absurd hterr hne
    · exact hcause
  · rcases exec_accounted h with ⟨hf, _, _, _⟩ | ⟨hnot, _, _⟩ | ⟨n, e, hfirst, _, _, hterr⟩
    · simp [hi] at hf
    · exact absurd hc hnot
    · exact ⟨n, e, hfirst, hterr⟩

end Sys2Proof.Machine
end

