-- ==== Sys2Proof/Proofs/Codec.lean ====
section
/-! The codec (40_codec R110, R112 to R115): frames and responses as their fields side by side, values as numbers, and
the frame's procedure by its answers. -/

namespace Sys2Proof.Machine

/-! ### Frames and responses -/

/-- Masking and shifting put the three fields side by side (40_codec R110). -/
theorem encodeFrame_eq_append (d : Dir) (a : BitVec 3) (p : Word) :
    encodeFrame d a p = dirBit d ++ a ++ p.extractLsb' 0 20 := by
  rw [encodeFrame_word, encodeFrame_payload]

/-- Two words side by side, as a number: the high one stands above all bits of the low one. -/
theorem toNat_append_eq_add {m n : Nat} (x : BitVec m) (y : BitVec n) : (x ++ y).toNat = x.toNat * 2 ^ n + y.toNat := by
  rw [BitVec.toNat_append, ← Nat.shiftLeft_add_eq_or_of_lt y.isLt, Nat.shiftLeft_eq]

theorem toNat_encodeFrame (d : Dir) (a : BitVec 3) (p : Word) :
    (encodeFrame d a p).toNat = (dirBit d).toNat * 2 ^ 23 + a.toNat * 2 ^ 20 + p.toNat % 2 ^ 20 := by
  have hlow : (p.extractLsb' 0 20).toNat = p.toNat % 2 ^ 20 := by rw [BitVec.extractLsb'_toNat, Nat.shiftRight_zero]
  rw [encodeFrame_eq_append, toNat_append_eq_add, toNat_append_eq_add, hlow]
  omega

/-- A response is its echo and its data (40_codec R112): nothing is lost. -/
theorem decodeReadback_append (r : Frame) : (decodeReadback r).2 ++ (decodeReadback r).1 = r :=
  frame_parts r

/-! ### Values -/

/-- What the 32-bit shift drops lies above the twenty bits kept (40_codec R113), so no offset needs it. -/
theorem toNat_scaleValue (o : Nat) (v : Word) : (scaleValue o v).toNat = v.toNat * 2 ^ o % 2 ^ 20 := by
  have hmask : (0xFFFFF#32).toNat = 2 ^ 20 - 1 := rfl
  rw [scaleValue, BitVec.toNat_setWidth, BitVec.toNat_and, hmask, Nat.and_two_pow_sub_one_eq_mod, Nat.mod_mod,
    BitVec.toNat_shiftLeft, Nat.shiftLeft_eq, Nat.mod_mod_of_dvd _ (by decide)]

theorem toNat_descaleValue (o : Nat) (d : Payload) : (descaleValue o d).toNat = d.toNat / 2 ^ o := by
  rw [descaleValue, BitVec.toNat_setWidth_of_le (by decide), BitVec.toNat_ushiftRight, Nat.shiftRight_eq_div_pow]

/-- `VALUE_BITS` and the offset together are the payload's twenty bits (10_state R27), which bounds the quotient. -/
theorem descaleValue_lt {o : Nat} (h : o ≤ 20) (d : Payload) : (descaleValue o d).toNat < 2 ^ valueBits o := by
  have hsplit : 2 ^ valueBits o * 2 ^ o = 2 ^ 20 := by rw [valueBits, Nat.pow_sub_mul_pow 2 h]
  rw [toNat_descaleValue, Nat.div_lt_iff_lt_mul (Nat.two_pow_pos o), hsplit]
  exact d.isLt

/-! ### The statements -/

/-- Settles O41: the rule of a whole frame and the rule of a frame cut at any of its four calls. -/
theorem txFrameAnswersEveryWay : Obligations.TxFrameAnswersEveryWay := by
  intro f s
  exact ⟨fun _ _ _ _ hgood => txFrame_of_ok f hgood, fun _ _ h1 h4 hcut => txFrame_of_err f h1 h4 hcut⟩

/-- Settles O9: the three fields side by side, read as a number. -/
theorem encodeFramePlacesItsFields : Obligations.EncodeFramePlacesItsFields := by
  intro d a p
  refine ⟨encodeFrame_eq_append d a p, ?_, by decide, by decide⟩
  rw [toNat_encodeFrame]
  cases d <;> rfl

/-- Settles O11: data and echo side by side are the response, so they are its remainder and quotient by `2^20`. -/
theorem decodeReadbackSplitsTheResponse : Obligations.DecodeReadbackSplitsTheResponse := by
  intro r
  have hsplit : r.toNat = (decodeReadback r).2.toNat * 2 ^ 20 + (decodeReadback r).1.toNat := by
    rw [← toNat_append_eq_add, decodeReadback_append]
  have hdata := (decodeReadback r).1.isLt
  exact ⟨by omega, by omega, decodeReadback_append r, by decide, by decide⟩

/-- Settles O12: at offset 2 the product by 4 modulo `2^20` keeps eighteen bits of the value. -/
theorem scaleValueShiftsThenTruncates : Obligations.ScaleValueShiftsThenTruncates := by
  refine ⟨fun v => ?_, fun v => ?_, fun _ _ _ => rfl,
    by decide, by decide, by decide, by decide, by decide, by decide⟩
  · rw [toNat_scaleValue]; omega
  · rw [toNat_scaleValue, Nat.pow_zero, Nat.mul_one]

/-- Settles O13: the quotient by `2^o`, and the offset is one the bound holds for. -/
theorem descaleValueIsBounded : Obligations.DescaleValueIsBounded := by
  exact ⟨fun o d ho => ⟨rfl, toNat_descaleValue o d, descaleValue_lt (by omega) d⟩, by decide, by decide⟩

end Sys2Proof.Machine
end

