-- ==== Sys2Proof/Proofs/Begin.lean ====
section
/-! `BEGIN` (41_begin R130, R131): its events, its cause and the mode it leaves are fixed by the operand, the configuration
and the transport's answer, so they are the same when those are. -/

namespace Sys2Proof.Machine

/-- The transport's answer to `BEGIN`'s one call, where the operand asks for the call. -/
def beginAnswer (opd : Word) (s : State) : Option Ack :=
  if opd = 1#32 then some (replyAck (draw s).1) else none

/-- The events of a `BEGIN`: none with an ill-formed operand, else the pins and then the call that was made. -/
def beginEvents (c : Cfg) (opd : Word) (answer : Option Ack) : List Event :=
  if boolOperandOk opd then beginPinEvents c ++ answer.toList.map (.busInit c.bus) else []

/-- The cause a `BEGIN` ends with. -/
def beginCause (opd : Word) (answer : Option Ack) : Cause :=
  if boolOperandOk opd then
    match answer with
    | some (.err _) => .transport
    | _ => .none
  else .illegalOperand

/-- What a `BEGIN` leaves, by its operand and the answer to its call. -/
structure BeginEffect (opd : Word) (s t : State) : Prop where
  cfg : t.cfg = s.cfg
  trace : t.trace = s.trace ++ beginEvents s.cfg opd (beginAnswer opd s)
  cause : t.lastCause = beginCause opd (beginAnswer opd s)
  mode : t.mode = if t.lastCause = .none then .ready else s.mode

theorem exec_begin_cases {opd : Word} {s t : State} (h : exec (.begin opd) s = .next t) :
    (boolOperandOk opd = false ∧ t = fail .illegalOperand s) ∨ Began opd s t := by
  rcases exec_cases h with ⟨hr, _⟩ | ⟨hw, ht⟩ | ⟨_, _, hb, _, _⟩ | ⟨_, _, hb, _, _, _⟩ | ⟨_, hi, _, hbegan⟩
  · cases hr
  · exact .inl ⟨hw, ht⟩
  · exact absurd rfl (hb opd)
  · exact absurd rfl (hb opd)
  · cases hi; exact .inr hbegan

theorem beginEffect_of_illegal {opd : Word} (hw : boolOperandOk opd = false) (s : State) :
    BeginEffect opd s (fail .illegalOperand s) :=
  ⟨rfl, by simp [beginEvents, hw], by simp [beginCause, hw], by simp⟩

theorem beginEffect_of_began {opd : Word} {s t : State} (h : Began opd s t) : BeginEffect opd s t := by
  have hw0 : boolOperandOk 0#32 = true := rfl
  have hw1 : boolOperandOk 1#32 = true := rfl
  rcases h with ⟨rfl, rfl⟩ | ⟨rfl, i, hd, rfl⟩ | ⟨rfl, e, hd, rfl⟩
  · have ha : beginAnswer 0#32 s = none := rfl
    constructor <;> simp [beginEvents, beginCause, hw0, ha]
  · have ha : beginAnswer 1#32 s = some .ok := by simp [beginAnswer, hd, replyAck]
    constructor <;> simp [beginEvents, beginCause, hw1, ha, afterDraws_eq]
  · have ha : beginAnswer 1#32 s = some (.err e) := by simp [beginAnswer, hd, replyAck]
    constructor <;> simp [beginEvents, beginCause, hw1, ha, afterDraws_eq]

theorem exec_begin_effect {opd : Word} {s t : State} (h : exec (.begin opd) s = .next t) : BeginEffect opd s t := by
  rcases exec_begin_cases h with ⟨hw, rfl⟩ | hbegan
  · exact beginEffect_of_illegal hw s
  · exact beginEffect_of_began hbegan

theorem exec_begin_img {opd : Word} {s t : State} (h : exec (.begin opd) s = .next t) : t.img = s.img :=
  (exec_img h).trans (ite_self _)

/-- The answer is the same where the transport answers the same way. -/
theorem beginAnswer_congr {opd : Word} {s t : State}
    (h : opd = 1#32 → (upcoming 1 t).map replyAck = (upcoming 1 s).map replyAck) :
    beginAnswer opd t = beginAnswer opd s := by
  unfold beginAnswer
  split
  · next hone => exact congrArg some (List.head_eq_of_cons_eq (h hone))
  · rfl

/-- Raising a flag twice is raising it once (10_state R38). -/
theorem raiseFlag_idem (c : Cause) (status : BitVec 4) : raiseFlag c (raiseFlag c status) = raiseFlag c status := by
  rw [raiseFlag, raiseFlag, BitVec.or_assoc, BitVec.or_self]

/-- Settles O26: the configuration stays and the answer is the same, so the second run has the first one's events and
cause. An equal cause raises the same flag, and it settles the mode in the same way. -/
theorem beginIsIdempotent : Obligations.BeginIsIdempotent := by
  intro s t u opd ht hu hsame
  have first := exec_begin_effect ht
  have second := exec_begin_effect hu
  have hanswer : beginAnswer opd t = beginAnswer opd s := beginAnswer_congr hsame
  have hcause : u.lastCause = t.lastCause := by rw [second.cause, first.cause, hanswer]
  refine ⟨⟨beginEvents s.cfg opd (beginAnswer opd s), first.trace, ?_⟩, ?_, exec_begin_img hu, ?_, hcause⟩
  · rw [second.trace, first.cfg, hanswer]
  · rw [second.mode, hcause, first.mode]
    split <;> rfl
  · rw [status_of_exec_command hu rfl, hcause, status_of_exec_command ht rfl, raiseFlag_idem]

end Sys2Proof.Machine
end

