-- ==== Sys2Proof/Proofs/Exceptions.lean ====
section
/-! Refusals and good ends (60_exceptions R192, R193, R195, R201): the instructions that are turned away and their causes,
and the value commands, which no operand turns away. -/

namespace Sys2Proof.Machine

/-! ### The instructions that are turned away -/

theorem isFrame_of_isReserved {i : Instr} (h : i.isReserved = true) : i.isFrame = false := by
  cases i with
  | reservedD _ | reservedE _ | reservedF _ => rfl
  | _ => cases h

/-- A reserved opcode's operand is ignored (60_exceptions R192). -/
theorem wellFormed_of_isReserved {i : Instr} (h : i.isReserved = true) : i.wellFormed = true := by
  cases i with
  | reservedD _ | reservedE _ | reservedF _ => rfl
  | _ => cases h

/-- Every payload of a wire frame's row is one of its words (30_encoding R96). -/
theorem wellFormed_of_isFrame {i : Instr} (h : i.isFrame = true) : i.wellFormed = true := by
  cases i with
  | frameWrDac _ | frameWrCtrl _ | frameWrClr _ | frameWrSwctrlLdac | frameRdDac | frameRdCtrl | frameNop => rfl
  | _ => cases h

/-- Host commands, reserved opcodes and wire frames are three kinds (30_encoding R90, R93, R96). -/
theorem kinds_of_isHostCommand {i : Instr} (h : i.isHostCommand = true) : i.isFrame = false ∧ i.isReserved = false := by
  cases i with
  | reservedD _ | reservedE _ | reservedF _ => cases h
  | frameWrDac _ | frameWrCtrl _ | frameWrClr _ | frameWrSwctrlLdac | frameRdDac | frameRdCtrl | frameNop => cases h
  | _ => exact ⟨rfl, rfl⟩

theorem exec_of_isReserved {i : Instr} (hi : i.isReserved = true) (s : State) :
    exec i s = .next (fail .illegalOpcode s) := by
  obtain ⟨t, ht⟩ := exec_total (isFrame_of_isReserved hi) s
  rcases exec_cases ht with ⟨_, rfl⟩ | ⟨hw, _⟩ | ⟨hr, _, _, _, _⟩ | ⟨hr, _, _, _, _, _⟩ | ⟨opd, rfl, _, _⟩
  · exact ht
  · simp [wellFormed_of_isReserved hi] at hw
  · simp [hi] at hr
  · simp [hi] at hr
  · cases hi

theorem exec_of_illFormed {i : Instr} (hi : i.wellFormed = false) (s : State) :
    exec i s = .next (fail .illegalOperand s) := by
  have hframe : i.isFrame = false := by
    by_contra hf
    simp [wellFormed_of_isFrame (eq_true_of_ne_false hf)] at hi
  obtain ⟨t, ht⟩ := exec_total hframe s
  rcases exec_cases ht with ⟨hr, _⟩ | ⟨_, rfl⟩ | ⟨_, hw, _, _, _⟩ | ⟨_, hw, _, _, _, _⟩ | ⟨opd, rfl, hw, _⟩
  · simp [wellFormed_of_isReserved hr] at hi
  · exact ht
  · simp [hi] at hw
  · simp [hi] at hw
  · exact absurd hw (ne_true_of_eq_false hi)

theorem exec_of_unconfigured {i : Instr} {s : State} (hi : i.isHostCommand = true) (hw : i.wellFormed = true)
    (hb : ∀ opd, i ≠ .begin opd) (hm : s.mode = .unconfigured) : exec i s = .next (fail .notReady s) := by
  obtain ⟨hframe, hreserved⟩ := kinds_of_isHostCommand hi
  obtain ⟨t, ht⟩ := exec_total hframe s
  rcases exec_cases ht with ⟨hr, _⟩ | ⟨hill, _⟩ | ⟨_, _, _, _, rfl⟩ | ⟨_, _, _, hready, _, _⟩ | ⟨opd, hbegin, _, _⟩
  · simp [hreserved] at hr
  · simp [hw] at hill
  · exact ht
  · simp [hm] at hready
  · exact absurd hbegin (hb opd)

/-- Settles O37: of the five ends only the reserved one is open to a reserved opcode. -/
theorem reservedOpcodesFail : Obligations.ReservedOpcodesFail :=
  fun _ s hi => exec_of_isReserved hi s

/-- Settles O38: of the five ends only the ill-formed one is open to an ill-formed command. -/
theorem illegalOperandsFail : Obligations.IllegalOperandsFail :=
  fun _ s hi => exec_of_illFormed hi s

/-- Settles O39: before `BEGIN` no other legal command runs, and none of the earlier checks turns it away. -/
theorem commandsBeforeBeginFail : Obligations.CommandsBeforeBeginFail :=
  fun _ _ hi hw hb hm => exec_of_unconfigured hi hw hb hm

/-! ### A value is its low `VALUE_BITS` bits -/

/-- `VALUE_MASK` is `2^VALUE_BITS - 1` for both variants (10_state R27). -/
theorem toNat_valueMask {o : Nat} (h : o = 0 ∨ o = 2) : (valueMask o).toNat = 2 ^ valueBits o - 1 := by
  rcases h with rfl | rfl <;> rfl

/-- The bits that the mask clears are those that the shift by the offset moves above the twenty bits kept. -/
theorem scaleValue_and_valueMask {o : Nat} (h : o = 0 ∨ o = 2) (v : Word) :
    scaleValue o (v &&& valueMask o) = scaleValue o v := by
  have hsplit : 2 ^ valueBits o * 2 ^ o = 2 ^ 20 := Nat.pow_sub_mul_pow 2 (by omega)
  rw [← BitVec.toNat_inj, toNat_scaleValue, toNat_scaleValue, BitVec.toNat_and, toNat_valueMask h,
    Nat.and_two_pow_sub_one_eq_mod, ← Nat.mul_mod_mul_right, hsplit, Nat.mod_mod]

/-- A VALUE operand is not checked (30_encoding R91), so a command's end depends on what its body does. -/
theorem execute_value_congr {v w : Word} {rule : ModeRule} {body body' : Body} {s : State} (h : body s = body' s) :
    execute .value v rule body s = execute .value w rule body' s := by
  simp [execute, operandLegal, h]

/-- `SET_VALUE` uses its operand through the scaling alone (42_value R144). -/
theorem exec_setValue_congr {v w : Word} {s : State} (h : scaleValue s.cfg.offset v = scaleValue s.cfg.offset w) :
    exec (.setValue v) s = exec (.setValue w) s := by
  have hbody : setValueBody v s = setValueBody w s := by rw [setValueBody, setValueBody, h]
  exact congrArg Host.Outcome.next (execute_value_congr (congrArg noResult hbody))

/-- `SET_CLEAR_CODE` uses its operand through the scaling alone (42_value R146). -/
theorem exec_setClearCode_congr {v w : Word} {s : State}
    (h : scaleValue s.cfg.offset v = scaleValue s.cfg.offset w) :
    exec (.setClearCode v) s = exec (.setClearCode w) s := by
  have hbody : setClearCodeBody v s = setClearCodeBody w s := by rw [setClearCodeBody, setClearCodeBody, h]
  exact congrArg Host.Outcome.next (execute_value_congr (congrArg noResult hbody))

/-! ### Good answers -/

theorem not_endsAtFirstError_of_good {rs : List BusReply} (hgood : rs.all replyOk = true) (e : TransportError) :
    ¬ endsAtFirstError rs e := by
  rintro ⟨oks, rfl, _⟩
  simp [replyOk] at hgood

theorem upcoming_good_of_le {m n : Nat} {s : State} (h : m ≤ n) (hgood : (upcoming n s).all replyOk = true) :
    (upcoming m s).all replyOk = true := by
  obtain ⟨k, rfl⟩ := Nat.exists_eq_add_of_le h
  rw [upcoming_add, List.all_append, Bool.and_eq_true] at hgood
  exact hgood.1

/-- Frames need four good answers each. -/
theorem sendFrames_of_good {fs : List Frame} {s : State} {n : Nat} (hlen : 4 * fs.length ≤ n)
    (hgood : (upcoming n s).all replyOk = true) : (sendFrames fs s).1 = none := by
  obtain ⟨k, _, hk, _, _, ⟨hnone, _⟩ | ⟨e, _, hfirst⟩⟩ := sendFrames_effect fs s
  · exact hnone
  · exact absurd hfirst (not_endsAtFirstError_of_good (upcoming_good_of_le (hk.trans hlen) hgood) e)

/-- With eight good answers, which are two frames, a run of a command completes. -/
theorem lastCause_of_ran_good {i : Instr} {s t : State} (h : Ran i s t) (hi : i.isFrame = false)
    (hgood : (upcoming 8 s).all replyOk = true) : t.lastCause = .none := by
  rcases h with ⟨_, _, _, _, _, rfl⟩ | ⟨hf, _⟩ | ⟨_, e, hs, _⟩
  · rfl
  · simp [hi] at hf
  · have hsent := sendFrames_of_good (s := { s with img := imageOf i s.img })
      (Nat.mul_le_mul_left 4 (framesOf_length_le i s)) (by rw [upcoming_img]; exact hgood)
    rw [hs] at hsent
    cases hsent

/-- A legal command but `BEGIN` completes in `READY` where the transport is good: no cause, no flag. -/
theorem completes_of_good {i : Instr} {s t : State} (h : exec i s = .next t) (hi : i.isHostCommand = true)
    (hw : i.wellFormed = true) (hb : ∀ opd, i ≠ .begin opd) (hm : s.mode = .ready)
    (hgood : (upcoming 8 s).all replyOk = true) : t.lastCause = .none ∧ t.status = s.status := by
  obtain ⟨hframe, hreserved⟩ := kinds_of_isHostCommand hi
  have hcause : t.lastCause = .none := by
    rcases exec_cases h with ⟨hr, _⟩ | ⟨hill, _⟩ | ⟨_, _, _, hun, _⟩ | ⟨_, _, _, _, _, hran⟩ | ⟨opd, hbegin, _, _⟩
    · simp [hreserved] at hr
    · simp [hw] at hill
    · simp [hm] at hun
    · exact lastCause_of_ran_good hran hframe hgood
    · exact absurd hbegin (hb opd)
  exact ⟨hcause, by rw [status_of_exec_command h hframe, hcause, raiseFlag_none]⟩

/-- Settles O15: scaling drops what the mask drops, and every operand of a value command is well-formed, so only the
transport could fail it. -/
theorem valueCommandsTruncateSilently : Obligations.ValueCommandsTruncateSilently := by
  refine ⟨fun s v ho => ?_, fun s t v hm hgood h => ?_⟩
  · have hscale := (scaleValue_and_valueMask ho v).symm
    exact ⟨exec_setValue_congr hscale, exec_setClearCode_congr hscale⟩
  · rcases h with h | h
    · exact completes_of_good h rfl rfl (by simp) hm hgood
    · exact completes_of_good h rfl rfl (by simp) hm hgood

end Sys2Proof.Machine
end

