-- ==== Sys2Proof/Proofs/Encoding.lean ====
section
/-! The two encodings (30_encoding R80 to R100) and the step that decodes: every instruction is read back from its word, every
host word has one outcome, the wire decoder reads the rows of the frame table and nothing else. -/

namespace Sys2Proof.Machine

/-! ### From an instruction to its word and back -/

theorem decode_hostWord (opc : BitVec 4) (opd : Word) : decode (hostWord opc opd) = .ok (hostInstr opc opd) := by
  simp only [decode, hostWord, decodeHost, hostOpcode_append, hostOperand_append]

/-- Settles O1: a host word is read by its opcode and its operand side by side, a wire frame by its head or as the one
word of its row. -/
theorem decodeInvertsEncode : Obligations.DecodeInvertsEncode := by
  intro i
  cases i with
  | frameWrDac p => exact (decodeWire_write p).1
  | frameWrCtrl p => exact (decodeWire_write p).2.1
  | frameWrClr p => exact (decodeWire_write p).2.2
  | frameWrSwctrlLdac | frameRdDac | frameRdCtrl | frameNop => rfl
  | _ => exact decode_hostWord _ _

/-! ### Every host word has one outcome -/

/-- Each of the sixteen opcodes is encoded as itself (30_encoding R90, R93). -/
theorem encode_hostInstr (opc : BitVec 4) (opd : Word) : encode (hostInstr opc opd) = hostWord opc opd := by
  obtain ⟨n⟩ := opc
  fin_cases n <;> rfl

theorem isReserved_hostInstr (opc : BitVec 4) (opd : Word) :
    (hostInstr opc opd).isReserved = true ↔ 0xD ≤ opc.toNat := by
  obtain ⟨n⟩ := opc
  fin_cases n <;> simp [hostInstr, Instr.isReserved]

theorem isHostCommand_hostInstr (opc : BitVec 4) (opd : Word) :
    (hostInstr opc opd).isHostCommand = true ↔ opc.toNat < 0xD := by
  obtain ⟨n⟩ := opc
  fin_cases n <;> simp [hostInstr, Instr.isHostCommand]

theorem noneOperandOk_eq_false_iff (opd : Word) : noneOperandOk opd = false ↔ opd.toNat ≠ 0 := by
  simp [noneOperandOk, ← BitVec.toNat_inj]

/-- Bits 31:1 of an operand are its half (30_encoding R91). -/
theorem boolOperandOk_eq_false_iff (opd : Word) : boolOperandOk opd = false ↔ opd.toNat / 2 ≠ 0 := by
  simp only [boolOperandOk, Bool.or_eq_false_iff, beq_eq_false_iff_ne, ne_eq, ← BitVec.toNat_inj, BitVec.toNat_ofNat]
  omega

/-- R91's check of an opcode's operand, by the class of its row (30_encoding R90). -/
theorem wellFormed_hostInstr_eq_false_iff (opc : BitVec 4) (opd : Word) :
    (hostInstr opc opd).wellFormed = false ↔
      (opc.toNat ∈ [0x2, 0x9, 0xA, 0xB, 0xC] ∧ opd.toNat ≠ 0) ∨
      (opc.toNat ∈ [0x0, 0x4, 0x5, 0x6, 0x7, 0x8] ∧ opd.toNat / 2 ≠ 0) := by
  rw [← noneOperandOk_eq_false_iff, ← boolOperandOk_eq_false_iff]
  obtain ⟨n⟩ := opc
  fin_cases n <;> simp [hostInstr, Instr.wellFormed]

/-- Settles O2: the word is its opcode and its operand side by side, and each class is read off the sixteen rows. -/
theorem everyHostWordHasOneOutcome : Obligations.EveryHostWordHasOneOutcome := by
  intro cw
  refine ⟨?_, isReserved_hostInstr _ _, isHostCommand_hostInstr _ _, wellFormed_hostInstr_eq_false_iff _ _⟩
  rw [decodeHost, encode_hostInstr, hostWord, hostWord_parts]

/-! ### The wire decoder -/

/-- What the wire decoder reads is a frame's own instruction. -/
theorem encode_of_decodeWire {f : Frame} {i : Instr} (h : decodeWire f = .ok i) :
    i.isFrame = true ∧ encode i = .wire f := by
  have hparts := frame_parts f
  unfold decodeWire at h
  split_ifs at h with h1 h2 h3 h4 h5 h6 h7 <;> cases h
  · exact ⟨rfl, by rw [encode, ← h1, hparts]⟩
  · exact ⟨rfl, by rw [encode, ← h2, hparts]⟩
  · exact ⟨rfl, by rw [encode, ← h3, hparts]⟩
  · exact ⟨rfl, by rw [encode, h4]⟩
  · exact ⟨rfl, by rw [encode, h5]⟩
  · exact ⟨rfl, by rw [encode, h6]⟩
  · exact ⟨rfl, by rw [encode, h7]⟩

theorem toNat_div_of_append (h : BitVec 4) (p : Payload) : (h ++ p : Frame).toNat / 2 ^ 20 = h.toNat := by
  have hp := p.isLt
  rw [toNat_append_eq_add]
  omega

/-- A frame with a given head is that head and its payload. -/
theorem eq_append_of_toNat_div {f : Frame} {h : BitVec 4} (hf : f.toNat / 2 ^ 20 = h.toNat) :
    f = h ++ framePayload f := by
  have hhead : frameHead f = h := by rw [← BitVec.toNat_inj, ← hf, ← toNat_div_of_append _ (framePayload f), frame_parts]
  rw [← hhead, frame_parts]

/-- Settles O3: what is read is a row of the table and encoded as the word, and each row's words are read. -/
theorem wireDecoderAcceptsTheEmittedFrames : Obligations.WireDecoderAcceptsTheEmittedFrames := by
  intro f
  refine ⟨⟨?_, ?_⟩, fun i h => encode_of_decodeWire h⟩
  · rintro ⟨i, h⟩
    obtain ⟨hi, he⟩ := encode_of_decodeWire h
    cases i with
    | frameWrDac p | frameWrCtrl p | frameWrClr p => cases he; rw [toNat_div_of_append]; simp
    | frameWrSwctrlLdac | frameRdDac | frameRdCtrl | frameNop => cases he; simp
    | _ => cases hi
  · simp only [List.mem_cons, List.not_mem_nil, or_false]
    rintro ((h | h | h) | (h | h | h | h))
    · rw [eq_append_of_toNat_div (h := 0x1#4) h]; exact ⟨_, (decodeWire_write _).1⟩
    · rw [eq_append_of_toNat_div (h := 0x2#4) h]; exact ⟨_, (decodeWire_write _).2.1⟩
    · rw [eq_append_of_toNat_div (h := 0x3#4) h]; exact ⟨_, (decodeWire_write _).2.2⟩
    · rw [BitVec.eq_of_toNat_eq (y := 0x400001#24) h]; exact ⟨_, rfl⟩
    · rw [BitVec.eq_of_toNat_eq (y := 0x900000#24) h]; exact ⟨_, rfl⟩
    · rw [BitVec.eq_of_toNat_eq (y := 0xA00000#24) h]; exact ⟨_, rfl⟩
    · rw [BitVec.eq_of_toNat_eq (y := 0x000000#24) h]; exact ⟨_, rfl⟩

/-- Settles O4: closed words, each decoded. -/
theorem sampleWordsDecode : Obligations.SampleWordsDecode := by
  unfold Obligations.SampleWordsDecode
  decide

/-! ### The step -/

theorem step_of_decode_ok {s : State} {w : CommandWord} {rest : List CommandWord} {i : Instr}
    (hreq : s.requests = w :: rest) (hdec : decode w = .ok i) : step s = exec i { s with requests := rest } := by
  simp only [step, hreq, hdec]

/-- Settles O5: the three branches of a step, and the wire decoder has one reason to refuse. -/
theorem stepRunsTheDecodedWord : Obligations.StepRunsTheDecodedWord := by
  intro s
  refine ⟨fun hreq => ?_, fun w rest i hreq hdec => step_of_decode_ok hreq hdec, fun w rest e hreq hdec => ?_⟩
  · simp only [step, hreq]
  · cases e
    simp only [step, hreq, hdec]

/-- Settles O6: the presented word stands first, decodes to the instruction, and is consumed. -/
theorem presentedTableWordRunsNext : Obligations.PresentedTableWordRunsNext := by
  intro s nbits w i h
  exact step_of_decode_ok (s := s.withFetchWord nbits w) rfl (decodeTableWord_eq_some h)

/-! ### Bytes and values -/

/-- Settles O10: the three bytes side by side are the frame, read as a number. -/
theorem serializeIsMostSignificantFirst : Obligations.SerializeIsMostSignificantFirst := by
  intro f
  refine ⟨f.extractLsb' 16 8, f.extractLsb' 8 8, f.extractLsb' 0 8, rfl, (frame_bytes f).symm, ?_⟩
  conv_lhs => rw [← frame_bytes f]
  rw [toNat_append_eq_add, toNat_append_eq_add]
  omega

/-- Scaling and descaling again gives back the bits that were kept (40_codec R119 (a)). -/
theorem descaleValue_scaleValue {o : Nat} (h : o = 0 ∨ o = 2) (v : Word) :
    descaleValue o (scaleValue o v) = v &&& valueMask o := by
  rw [← BitVec.toNat_inj, toNat_descaleValue, toNat_scaleValue, BitVec.toNat_and, toNat_valueMask h,
    Nat.and_two_pow_sub_one_eq_mod]
  rcases h with rfl | rfl <;> simp only [valueBits] <;> omega

/-- Descaling and scaling again clears the bits below the offset. -/
theorem getLsbD_scaleValue_descaleValue (o : Nat) (d : Payload) {k : Nat} (hk : k < 20) :
    (scaleValue o (descaleValue o d)).getLsbD k = (decide (o ≤ k) && d.getLsbD k) := by
  have hmask : (0xFFFFF#32).getLsbD k = true := by interval_cases k <;> rfl
  simp only [scaleValue, descaleValue, BitVec.getLsbD_setWidth, BitVec.getLsbD_and, BitVec.getLsbD_shiftLeft,
    BitVec.getLsbD_ushiftRight, hmask]
  by_cases h : k < o
  · simp [h]
  · rw [show o + (k - o) = k by omega]
    simp [h, hk, show k - o < 32 by omega, show k < 32 by omega, Nat.le_of_not_lt h]

/-- The payload bits that a value of an offset can set: those from the offset up. -/
theorem getLsbD_payloadMask {o : Nat} (h : o = 0 ∨ o = 2) {k : Nat} (hk : k < 20) :
    (0xFFFFF#20 &&& ~~~((1#20 <<< o) - 1#20)).getLsbD k = decide (o ≤ k) := by
  rcases h with rfl | rfl <;> interval_cases k <;> rfl

/-- A frame is its direction, address and payload (30_encoding R80). -/
theorem dirBit_append_fields (f : Frame) :
    dirBit (if f.getLsbD 23 then .read else .write) ++ f.extractLsb' 20 3 ++ f.extractLsb' 0 20 = f := by
  have hdir : dirBit (if f.getLsbD 23 then .read else .write) = f.extractLsb' 23 1 := by
    apply BitVec.eq_of_getLsbD_eq; intro k hk
    obtain rfl : k = 0 := by omega
    rw [BitVec.getLsbD_extractLsb']
    cases f.getLsbD 23 <;> rfl
  rw [hdir]
  apply BitVec.eq_of_getLsbD_eq; intro k hk
  simp only [BitVec.getLsbD_append, BitVec.getLsbD_extractLsb']
  interval_cases k <;> simp

/-- Settles O14: the two laws of scaling as numbers and as bits, the masking done twice, and a frame as its fields. -/
theorem codecArithmeticLaws : Obligations.CodecArithmeticLaws := by
  intro o ho
  refine ⟨descaleValue_scaleValue ho, fun d => ?_, fun d a p => ?_, fun f => ?_,
    fun v => (scaleValue_and_valueMask ho v).symm⟩
  · apply BitVec.eq_of_getLsbD_eq; intro k hk
    rw [getLsbD_scaleValue_descaleValue o d hk, BitVec.getLsbD_and, getLsbD_payloadMask ho hk, Bool.and_comm]
  · rw [encodeFrame, encodeFrame, BitVec.and_assoc, BitVec.and_self]
  · rw [encodeFrame_payload, dirBit_append_fields]

end Sys2Proof.Machine
end

