-- ==== Sys2Proof/Proofs/Legality.lean ====
section
/-! Construction (70_reset_and_hazards R210) and the image (10_state R29, R33 to R36): the reset values, the instructions that
write the image, and that the image stays legal. -/

namespace Sys2Proof.Machine

/-! ### Construction -/

/-- Settles O8: an accepted configuration builds the initial state, whose trace has no event. -/
theorem constructionGivesResetValues : Obligations.ConstructionGivesResetValues := by
  refine ⟨fun c s h => ?_, rfl, rfl, rfl, rfl⟩
  obtain ⟨_, rfl⟩ := construct_eq_some h
  exact ⟨rfl, rfl, rfl, rfl, rfl, rfl, rfl, fun _ => rfl⟩

/-- Settles O23: the reset image is legal, no event has been emitted, and the mode is not `READY`. -/
theorem invariantsHoldAtConstruction : Obligations.InvariantsHoldAtConstruction := by
  intro c
  have himg : imgLegal 0x0000001E#32 := by decide
  exact ⟨himg, rfl, fun hready => by cases hready⟩

/-! ### Who writes the image -/

/-- Settles O19: the image after an instruction, field by field. -/
theorem eachInstructionWritesItsFieldsAlone : Obligations.EachInstructionWritesItsFieldsAlone :=
  fun _ _ _ f h => fieldRead_of_exec h f

/-- Only the setters and the two sequences have an image of their own (10_state R29). -/
theorem writer_of_imageOf_ne {i : Instr} {img : Word} (h : imageOf i img ≠ img) :
    (∃ opd, i = .setInternalAmplifier opd ∨ i = .setOutputClamp opd ∨ i = .setTristateMode opd ∨
      i = .setOffsetBinary opd ∨ i = .setReferenceInputRange opd) ∨
    (∃ opd, i = .enableOutput opd ∨ i = .reset opd) := by
  cases i with
  | setInternalAmplifier opd | setOutputClamp opd | setTristateMode opd | setOffsetBinary opd
  | setReferenceInputRange opd => exact .inl ⟨opd, by simp⟩
  | enableOutput opd | reset opd => exact .inr ⟨opd, by simp⟩
  | _ => exact absurd rfl h

/-- Settles O21: the image moves only where the instruction runs, and then to the instruction's own image. -/
theorem onlySettersAndSequencesWriteTheImage : Obligations.OnlySettersAndSequencesWriteTheImage := by
  intro i s t h hne
  rw [exec_img h] at hne
  split at hne
  · next hrun => exact ⟨hrun.1, hrun.2, writer_of_imageOf_ne hne⟩
  · exact absurd rfl hne

/-! ### The image stays legal -/

/-- The bits that no image has set: 0, 5 and 31:10 (10_state R34, R36). -/
def zeroBits : Word := 0xFFFFFC21#32

theorem fieldRead_lincomp (img : Word) : fieldRead .lincomp img = img.extractLsb' 6 4 := by
  apply BitVec.eq_of_getLsbD_eq; intro k hk
  rw [fieldRead_getLsbD, BitVec.getLsbD_extractLsb']
  rfl

theorem imgLegal_iff (img : Word) :
    imgLegal img ↔ img &&& zeroBits = 0#32 ∧ (fieldRead .lincomp img = 0b0000#4 ∨ fieldRead .lincomp img = 0b1100#4) := by
  rw [fieldRead_lincomp]; rfl

/-- A field that some command writes has no place among the zero bits, so writing it leaves them. -/
theorem fieldWrite_and_zeroBits {f : Field} (hf : f ≠ .sdodis) (val : BitVec 4) (img : Word) :
    fieldWrite f val img &&& zeroBits = img &&& zeroBits := by
  have hplace : zeroBits = ~~~ fieldMask f &&& zeroBits := by
    cases f with
    | sdodis => exact absurd rfl hf
    | _ => decide
  rw [hplace, ← BitVec.and_assoc, fieldWrite_and_not_mask, BitVec.and_assoc]

theorem imgLegal_fieldWrite {f : Field} {val : BitVec 4} {img : Word} (hf : f ≠ .sdodis)
    (hfit : val.toNat < 2 ^ fieldWidth f) (hcode : f = .lincomp → val = 0b0000#4 ∨ val = 0b1100#4)
    (h : imgLegal img) : imgLegal (fieldWrite f val img) := by
  rw [imgLegal_iff] at h ⊢
  rw [fieldWrite_and_zeroBits hf, fieldRead_fieldWrite hfit]
  refine ⟨h.1, ?_⟩
  split
  · next hl => exact hcode hl.symm
  · exact h.2

theorem imgLegal_writeBit {f : Field} (hf : f ≠ .sdodis) (hl : f ≠ .lincomp) (b : Bool) {img : Word} (h : imgLegal img) :
    imgLegal (fieldWrite f (fieldBit b) img) :=
  imgLegal_fieldWrite hf (fieldBit_fits f b) (fun hf => absurd hf hl) h

theorem imgLegal_writeRange (b : Bool) {img : Word} (h : imgLegal img) :
    imgLegal (fieldWrite .lincomp (rangeCode b) img) :=
  imgLegal_fieldWrite (by decide) (rangeCode_fits b) (fun _ => by cases b <;> decide) h

/-- Every command's own image is legal where the old one was. -/
theorem imgLegal_imageOf (i : Instr) {img : Word} (h : imgLegal img) : imgLegal (imageOf i img) := by
  cases i with
  | setInternalAmplifier _ | setOutputClamp _ | setTristateMode _ | setOffsetBinary _ =>
    exact imgLegal_writeBit (by decide) (by decide) _ h
  | setReferenceInputRange _ => exact imgLegal_writeRange _ h
  | enableOutput _ | reset _ => rw [imageOf, fieldWrite_sequence]; exact imgLegal_sequence h
  | _ => exact h

theorem exec_imgLegal {i : Instr} {s t : State} (h : exec i s = .next t) (hs : imgLegal s.img) : imgLegal t.img := by
  rw [exec_img h]
  split
  · exact imgLegal_imageOf i hs
  · exact hs

/-- SDO-disable is one of the zero bits (10_state R36). -/
theorem fieldRead_sdodis_of_legal {img : Word} (h : imgLegal img) : fieldRead .sdodis img = 0#4 := by
  have hzero : img &&& fieldMask .sdodis = 0#32 := by
    rw [show fieldMask .sdodis = zeroBits &&& fieldMask .sdodis by decide, ← BitVec.and_assoc, ((imgLegal_iff img).mp h).1,
      BitVec.zero_and]
  rw [fieldRead, hzero]
  rfl

/-- Settles O22: each write keeps the zero bits and the two codes, and the bits a frame drops are zero bits. -/
theorem imageStaysLegal : Obligations.ImageStaysLegal := by
  refine ⟨fun s t hs h => ?_, fun img h => ⟨?_, fieldRead_sdodis_of_legal h⟩⟩
  · rcases step_next h with ⟨_, rfl⟩ | ⟨_, _, _, _, _, hexec⟩
    · exact hs
    · exact exec_imgLegal hexec hs
  · rw [show img.setWidth 20 = img.extractLsb' 0 20 from BitVec.setWidth_eq_extractLsb' (by decide)]
    exact imgLegal_payload h

end Sys2Proof.Machine
end

