-- ==== Sys2Proof/Proofs/Safety.lean ====
section
/-! The trace of an instruction as blocks of events: frames whole or cut, a pulse of the load-strobe pin, `BEGIN`'s pins and its
call. Each block keeps the discipline of the bus (20_memory R55 to R58) and leaves the pins at rest (42_value R141), so
every step does. -/

namespace Sys2Proof.Machine

/-! ### The blocks -/

/-- The events of one frame, whole or cut at one of its four calls. -/
inductive FrameBlock (c : Cfg) (f : Frame) : List Event → Prop where
  | whole (i2 i1 i0 : Byte) : FrameBlock c f (frameEvents c f i2 i1 i0)
  | cut (rs : List BusReply) (e : TransportError) (hlen : rs.length ≤ 4) (hcut : endsAtFirstError rs e) :
      FrameBlock c f (cutFrameEvents c f rs)

/-- The blocks of events that an instruction emits from a state. -/
inductive Block (i : Instr) (s : State) : List Event → Prop where
  | frame (f : Frame) (evs : List Event) (hm : s.mode = .ready) (he : emits i s = true) (hf : f ∈ framesOf i s)
      (hb : FrameBlock s.cfg f evs) : Block i s evs
  | pulse (p : PinId) (hp : s.cfg.ldacPin = some p) : Block i s [.pinWrite p .high, .pinWrite p .low]
  | pins : Block i s (beginPinEvents s.cfg)
  | call (a : Ack) : Block i s [.busInit s.cfg.bus a]

/-- Sending frames appends a block for each frame that was tried. -/
theorem sendFrames_blocks (fs : List Frame) (s : State) :
    (sendFrames fs s).2.cfg = s.cfg ∧ ∃ blocks : List (List Event), (sendFrames fs s).2.trace = s.trace ++ blocks.flatten ∧
      ∀ b ∈ blocks, ∃ f ∈ fs, FrameBlock s.cfg f b := by
  induction fs generalizing s with
  | nil => exact ⟨rfl, [], by simp [sendFrames], by simp⟩
  | cons f fs ih =>
    rcases txFrame_cases f s with ⟨x, i2, i1, i0, _, h⟩ | ⟨n, e, _, h4, hcut, h⟩
    · obtain ⟨hcfg, blocks, htrace, hblocks⟩ :=
        ih { afterDraws 4 s with trace := s.trace ++ frameEvents s.cfg f i2 i1 i0 }
      have hc : (afterDraws 4 s).cfg = s.cfg := by rw [afterDraws_eq]
      rw [sendFrames, h]
      refine ⟨hcfg.trans hc, frameEvents s.cfg f i2 i1 i0 :: blocks, by simp [htrace], ?_⟩
      intro b hb
      rcases List.mem_cons.mp hb with rfl | hb
      · exact ⟨f, by simp, .whole i2 i1 i0⟩
      · obtain ⟨g, hg, hgb⟩ := hblocks b hb
        rw [hc] at hgb
        exact ⟨g, by simp [hg], hgb⟩
    · rw [sendFrames, h]
      refine ⟨by simp [afterDraws_eq], [cutFrameEvents s.cfg f (upcoming n s)], by simp, ?_⟩
      intro b hb
      rw [List.mem_singleton.mp hb]
      exact ⟨f, by simp, .cut _ e (by simpa using h4) hcut⟩

/-- The pin writes after the frames are none, or one pulse of the load-strobe pin (42_value R141). -/
theorem pulsesOf_cases (i : Instr) (s : State) :
    pulsesOf i s = [] ∨ ∃ p, s.cfg.ldacPin = some p ∧ pulsesOf i s = [.pinWrite p .high, .pinWrite p .low] := by
  cases i with
  | setValue v =>
    cases hl : s.cfg.ldacPin with
    | none => exact .inl (by simp [pulsesOf, hl])
    | some p => exact .inr ⟨p, rfl, by simp [pulsesOf, hl]⟩
  | _ => exact .inl rfl

/-- What a list of blocks appends to the trace. -/
def Appends (i : Instr) (s t : State) : Prop :=
  t.cfg = s.cfg ∧ ∃ blocks : List (List Event), t.trace = s.trace ++ blocks.flatten ∧ ∀ b ∈ blocks, Block i s b

theorem appends_refl (i : Instr) (s : State) : Appends i s s := ⟨rfl, [], by simp, by simp⟩

/-- What was appended is read off the configuration and the trace alone. -/
theorem Appends.congr {i : Instr} {s t u : State} (h : Appends i s t) (hcfg : u.cfg = t.cfg) (htrace : u.trace = t.trace) :
    Appends i s u := by
  rw [Appends, hcfg, htrace]; exact h

theorem Appends.snoc {i : Instr} {s t u : State} {b : List Event} (h : Appends i s t) (hcfg : u.cfg = t.cfg)
    (htrace : u.trace = t.trace ++ b) (hb : Block i s b) : Appends i s u := by
  obtain ⟨hc, blocks, ht, hall⟩ := h
  refine ⟨hcfg.trans hc, blocks ++ [b], by simp [htrace, ht], ?_⟩
  intro b' hb'
  rcases List.mem_append.mp hb' with hb' | hb'
  · exact hall b' hb'
  · rw [List.mem_singleton.mp hb']; exact hb

theorem appends_of_sendFrames {i : Instr} {s s' : State} {img : Word} {r : Option TransportError}
    (hm : s.mode = .ready) (he : emits i s = true) (hs : sendFrames (framesOf i s) { s with img := img } = (r, s')) :
    Appends i s s' := by
  obtain ⟨hcfg, blocks, htrace, hblocks⟩ := sendFrames_blocks (framesOf i s) { s with img := img }
  rw [hs] at hcfg htrace
  refine ⟨hcfg, blocks, htrace, fun b hb => ?_⟩
  obtain ⟨f, hf, hfb⟩ := hblocks b hb
  exact .frame f b hm he hf hfb

theorem appends_of_ran {i : Instr} {s t : State} (hm : s.mode = .ready) (he : emits i s = true) (h : Ran i s t) :
    Appends i s t := by
  rcases h with ⟨s', res, _, hs, _, rfl⟩ | ⟨_, hs⟩ | ⟨s', e, hs, rfl⟩
  · have hsent := appends_of_sendFrames hm he hs
    rcases pulsesOf_cases i s with hp | ⟨p, hp, hpulse⟩
    · exact hsent.congr rfl (by rw [hp, complete_trace, List.append_nil])
    · exact hsent.snoc rfl (by rw [← hpulse]; rfl) (.pulse p hp)
  · exact appends_of_sendFrames (img := s.img) hm he hs
  · exact (appends_of_sendFrames hm he hs).congr rfl rfl

theorem appends_of_began {i : Instr} {opd : Word} {s t : State} (h : Began opd s t) : Appends i s t := by
  have hpins : Appends i s { s with trace := s.trace ++ beginPinEvents s.cfg } :=
    (appends_refl i s).snoc rfl rfl .pins
  rcases h with ⟨_, rfl⟩ | ⟨_, _, _, rfl⟩ | ⟨_, e, _, rfl⟩
  · exact hpins.congr rfl rfl
  · exact hpins.snoc (by simp [afterDraws_eq]) rfl (.call .ok)
  · exact hpins.snoc (by simp [afterDraws_eq]) rfl (.call (.err e))

/-- Every instruction keeps the configuration and appends blocks. -/
theorem exec_appends {i : Instr} {s t : State} (h : exec i s = .next t) : Appends i s t := by
  rcases exec_cases h with ⟨_, rfl⟩ | ⟨_, rfl⟩ | ⟨_, _, _, _, rfl⟩ | ⟨_, _, _, hm, he, hran⟩ | ⟨_, _, _, hbegan⟩
  · exact (appends_refl i s).congr rfl rfl
  · exact (appends_refl i s).congr rfl rfl
  · exact (appends_refl i s).congr rfl rfl
  · exact appends_of_ran hm he hran
  · exact appends_of_began hbegan

/-! ### The discipline of the bus -/

theorem busAfter_flatten {c : Cfg} {blocks : List (List Event)}
    (h : ∀ b ∈ blocks, busAfter c b .idle = some .idle) : busAfter c blocks.flatten .idle = some .idle := by
  induction blocks with
  | nil => rfl
  | cons b bs ih =>
    rw [List.flatten_cons, busAfter_append, h b (by simp)]
    exact ih fun b' hb' => h b' (by simp [hb'])

theorem busAfter_beginPinEvents {c : Cfg} (hc : cfgAccepted c = true) :
    busAfter c (beginPinEvents c) .idle = some .idle := by
  cases hl : c.ldacPin with
  | none => simp [beginPinEvents, hl, busAfter, busNext]
  | some p => simp [beginPinEvents, hl, busAfter, busNext, ldacPin_ne_csPin hc hl]

/-- Each block begins and ends with no transaction open. -/
theorem busAfter_block {i : Instr} {s : State} {b : List Event} (hc : cfgAccepted s.cfg = true) (hi : imgLegal s.img)
    (hb : Block i s b) : busAfter s.cfg b .idle = some .idle := by
  cases hb with
  | frame f _ _ he hf hfb =>
    cases hfb with
    | whole i2 i1 i0 => exact busAfter_frameEvents s.cfg (framesOf_allowed hc hi he hf) i2 i1 i0
    | cut rs e hlen hcut => exact busAfter_cutFrameEvents s.cfg f hlen hcut
  | pulse p hp => simp [busAfter, busNext, ldacPin_ne_csPin hc hp, hp]
  | pins => exact busAfter_beginPinEvents hc
  | call a => simp [busAfter, busNext]

theorem exec_busDisciplined {i : Instr} {s t : State} (h : exec i s = .next t) (hc : cfgAccepted s.cfg = true)
    (hi : imgLegal s.img) (hd : busDisciplined s) : busDisciplined t := by
  obtain ⟨hcfg, blocks, htrace, hblocks⟩ := exec_appends h
  unfold busDisciplined at hd ⊢
  rw [hcfg, htrace, busAfter_append, hd]
  exact busAfter_flatten fun b hb => busAfter_block hc hi (hblocks b hb)

/-- Settles O55: every block of a step is disciplined, because the frames of a legal image are allowed ones. -/
theorem busDisciplineIsKept : Obligations.BusDisciplineIsKept := by
  intro s t hc hi hd h
  rcases step_next h with ⟨_, rfl⟩ | ⟨_, rest, i, _, _, hexec⟩
  · exact ⟨hd, hc, hi⟩
  · have hcfg : t.cfg = s.cfg := (exec_appends hexec).1
    exact ⟨exec_busDisciplined hexec hc hi hd, by rw [hcfg]; exact hc, exec_imgLegal hexec hi⟩

/-! ### The pins at rest -/

/-- Events after which a pin that rested at a level rests there again. -/
def keepsLevel (p : PinId) (l : Level) (evs : List Event) : Prop := evs.foldl (pinStep p) (some l) = some l

theorem keepsLevel_flatten {p : PinId} {l : Level} {blocks : List (List Event)}
    (h : ∀ b ∈ blocks, keepsLevel p l b) : keepsLevel p l blocks.flatten := by
  induction blocks with
  | nil => rfl
  | cons b bs ih =>
    rw [keepsLevel, List.flatten_cons, List.foldl_append, h b (by simp)]
    exact ih fun b' hb' => h b' (by simp [hb'])

/-- Exchanged bytes move no pin. -/
theorem foldl_pinStep_xfers (p : PinId) (bus : BusHandle) (os : List Byte) (rs : List BusReply) (lvl : Option Level) :
    (List.zipWith (fun o r => Event.xfer bus o r) os rs).foldl (pinStep p) lvl = lvl := by
  induction os generalizing rs with
  | nil => rfl
  | cons o os ih =>
    cases rs with
    | nil => rfl
    | cons r rs => exact ih rs

theorem csPin_rests_after_frame {c : Cfg} {f : Frame} {b : List Event} (h : FrameBlock c f b) :
    keepsLevel c.csPin (csDeassert c) b := by
  cases h with
  | whole i2 i1 i0 => simp [keepsLevel, frameEvents, txnBeginEvent, pinStep]
  | cut rs e _ _ =>
    cases rs with
    | nil => rfl
    | cons r rest =>
      cases r with
      | err e => rfl
      | ok i => simp [keepsLevel, cutFrameEvents, txnBeginEvent, pinStep]

theorem other_pin_rests_after_frame {c : Cfg} {f : Frame} {b : List Event} {p : PinId} (hp : p ≠ c.csPin) (l : Level)
    (h : FrameBlock c f b) : keepsLevel p l b := by
  cases h with
  | whole i2 i1 i0 => simp [keepsLevel, frameEvents, txnBeginEvent, pinStep, hp.symm]
  | cut rs e _ _ =>
    cases rs with
    | nil => rfl
    | cons r rest =>
      cases r with
      | err e => rfl
      | ok i => simp [keepsLevel, cutFrameEvents, txnBeginEvent, pinStep, hp.symm, foldl_pinStep_xfers]

/-- `BEGIN`'s pin events put the chip-select at rest, whatever its level was (41_begin R130). -/
theorem csPin_rests_after_pins {c : Cfg} (hc : cfgAccepted c = true) (lvl : Option Level) :
    (beginPinEvents c).foldl (pinStep c.csPin) lvl = some (csDeassert c) := by
  cases hl : c.ldacPin with
  | none => simp [beginPinEvents, hl, pinStep]
  | some p => simp [beginPinEvents, hl, pinStep, ldacPin_ne_csPin hc hl]

/-- `BEGIN`'s pin events put the load-strobe pin at rest, whatever its level was (41_begin R130). -/
theorem ldacPin_rests_after_pins {c : Cfg} {p : PinId} (hp : c.ldacPin = some p) (lvl : Option Level) :
    (beginPinEvents c).foldl (pinStep p) lvl = some .low := by
  simp [beginPinEvents, hp, pinStep]

theorem csPin_rests_after_block {i : Instr} {s : State} {b : List Event} (hc : cfgAccepted s.cfg = true)
    (hb : Block i s b) : keepsLevel s.cfg.csPin (csDeassert s.cfg) b := by
  cases hb with
  | frame f _ _ _ _ hfb => exact csPin_rests_after_frame hfb
  | pulse p hp => simp [keepsLevel, pinStep, ldacPin_ne_csPin hc hp]
  | pins => exact csPin_rests_after_pins hc _
  | call a => rfl

theorem ldacPin_rests_after_block {i : Instr} {s : State} {b : List Event} {p : PinId} (hc : cfgAccepted s.cfg = true)
    (hp : s.cfg.ldacPin = some p) (hb : Block i s b) : keepsLevel p .low b := by
  cases hb with
  | frame f _ _ _ _ hfb => exact other_pin_rests_after_frame (ldacPin_ne_csPin hc hp) .low hfb
  | pulse q hq =>
    obtain rfl : p = q := Option.some.inj (hp.symm.trans hq)
    simp [keepsLevel, pinStep]
  | pins => exact ldacPin_rests_after_pins hp _
  | call a => rfl

/-- In `READY` an instruction leaves the pins at rest, however it ends. -/
theorem pinsAtRest_of_ready {i : Instr} {s t : State} (h : exec i s = .next t) (hc : cfgAccepted s.cfg = true)
    (hm : s.mode = .ready) (hrest : pinsAtRest s) : pinsAtRest t := by
  intro _
  obtain ⟨hcs, hldac⟩ := hrest hm
  obtain ⟨hcfg, blocks, htrace, hblocks⟩ := exec_appends h
  rw [hcfg, htrace]
  refine ⟨?_, fun p hp => ?_⟩
  · rw [pinLevel_append, hcs]
    exact keepsLevel_flatten fun b hb => csPin_rests_after_block hc (hblocks b hb)
  · rw [pinLevel_append, hldac p hp]
    exact keepsLevel_flatten fun b hb => ldacPin_rests_after_block hc hp (hblocks b hb)

/-- A `BEGIN` with a legal operand leaves the pins at rest: its call to the bus moves none. -/
theorem pinsAtRest_of_began {opd : Word} {s t : State} (h : Began opd s t) (hc : cfgAccepted s.cfg = true) :
    pinsAtRest t := by
  have hpins : ∀ evs, (∀ p lvl, evs.foldl (pinStep p) lvl = lvl) → t.cfg = s.cfg →
      t.trace = s.trace ++ beginPinEvents s.cfg ++ evs → pinsAtRest t := by
    intro evs hquiet hcfg htrace _
    rw [hcfg, htrace]
    refine ⟨?_, fun p hp => ?_⟩
    · rw [pinLevel_append, hquiet, pinLevel_append, csPin_rests_after_pins hc]
    · rw [pinLevel_append, hquiet, pinLevel_append, ldacPin_rests_after_pins hp]
  rcases h with ⟨_, rfl⟩ | ⟨_, _, _, rfl⟩ | ⟨_, e, _, rfl⟩
  · exact hpins [] (fun _ _ => rfl) rfl (by simp)
  · exact hpins [.busInit s.cfg.bus .ok] (fun _ _ => rfl) (by simp [afterDraws_eq]) rfl
  · exact hpins [.busInit s.cfg.bus (.err e)] (fun _ _ => rfl) (by simp [afterDraws_eq]) rfl

/-- Settles O56: in `READY` every block leaves the pins at rest, and of the steps before it only a `BEGIN` reaches
`READY`. -/
theorem pinsRestBetweenCommands : Obligations.PinsRestBetweenCommands := by
  intro s t hc hrest h
  rcases step_next h with ⟨_, rfl⟩ | ⟨_, rest, i, _, _, hexec⟩
  · exact hrest
  · cases hm : s.mode with
    | ready => exact pinsAtRest_of_ready hexec hc hm hrest
    | unconfigured =>
      intro hready
      rcases exec_mode hexec with hsame | ⟨_, hcause, opd, rfl, hw⟩
      · rw [hready] at hsame; exact absurd (hsame.trans hm) (by simp)
      · rcases exec_begin_cases hexec with ⟨hill, _⟩ | hbegan
        · rw [show boolOperandOk opd = true from hw] at hill; cases hill
        · exact pinsAtRest_of_began hbegan hc hready

/-! ### Before `BEGIN` -/

theorem mem_beginPinEvents {c : Cfg} {e : Event} (h : e ∈ beginPinEvents c) :
    (∃ p, e = .pinMode p) ∨ ∃ p l, e = .pinWrite p l := by
  rcases List.mem_append.mp h with h | h
  · simp only [List.mem_cons, List.not_mem_nil, or_false] at h
    rcases h with rfl | rfl
    · exact .inl ⟨_, rfl⟩
    · exact .inr ⟨_, _, rfl⟩
  · cases hl : c.ldacPin with
    | none => simp [hl] at h
    | some p =>
      simp only [hl, List.mem_cons, List.not_mem_nil, or_false] at h
      rcases h with rfl | rfl
      · exact .inl ⟨_, rfl⟩
      · exact .inr ⟨_, _, rfl⟩

/-- Settles O54: before `READY` the only blocks are pin events and `BEGIN`'s call. -/
theorem noFrameLeavesBeforeReady : Obligations.NoFrameLeavesBeforeReady := by
  intro s t h hm
  rcases step_next h with ⟨_, rfl⟩ | ⟨_, rest, i, _, _, hexec⟩
  · exact ⟨[], by simp, by simp⟩
  · obtain ⟨_, blocks, htrace, hblocks⟩ := exec_appends hexec
    refine ⟨blocks.flatten, htrace, fun e he => ?_⟩
    obtain ⟨b, hb, heb⟩ := List.mem_flatten.mp he
    cases hblocks b hb with
    | frame f _ hready _ _ _ => rw [hm] at hready; cases hready
    | pulse p _ =>
      simp only [List.mem_cons, List.not_mem_nil, or_false] at heb
      rcases heb with rfl | rfl
      · exact .inr (.inl ⟨p, .high, rfl⟩)
      · exact .inr (.inl ⟨p, .low, rfl⟩)
    | pins => exact (mem_beginPinEvents heb).imp_right .inl
    | call a => exact .inr (.inr ⟨a, List.mem_singleton.mp heb⟩)

end Sys2Proof.Machine
end

