-- ==== Sys2Proof/Proofs/Runs.lean ====
section
/-! An instruction that nothing turns away, computed: its next state is what sending its frames leaves, completed or failed
(60_exceptions R190). Sending is computed frame by frame from the transport's answers. -/

namespace Sys2Proof.Machine

/-! ### Sending, by the answers -/

theorem sendFrames_cons_ok (f : Frame) (fs : List Frame) {s : State} {x i2 i1 i0 : Byte}
    (h : upcoming 4 s = [.ok x, .ok i2, .ok i1, .ok i0]) :
    sendFrames (f :: fs) s =
      sendFrames fs { afterDraws 4 s with trace := s.trace ++ frameEvents s.cfg f i2 i1 i0 } := by
  rw [sendFrames, txFrame_of_ok f h]

theorem sendFrames_cons_err (f : Frame) (fs : List Frame) {s : State} {n : Nat} {e : TransportError} (h1 : 1 ≤ n)
    (h4 : n ≤ 4) (h : endsAtFirstError (upcoming n s) e) :
    sendFrames (f :: fs) s =
      (some e, { afterDraws n s with trace := s.trace ++ cutFrameEvents s.cfg f (upcoming n s) }) := by
  rw [sendFrames, txFrame_of_err f h1 h4 h]

theorem upcoming_trace (n : Nat) (tr : List Event) (s : State) : upcoming n { s with trace := tr } = upcoming n s :=
  upcoming_congr n rfl rfl

/-- Eight answers are four, and four more after those. -/
theorem upcoming_eight {s : State} {as bs : List BusReply} (h : upcoming 8 s = as ++ bs) (ha : as.length = 4) :
    upcoming 4 s = as ∧ upcoming 4 (afterDraws 4 s) = bs := by
  rw [show (8 : Nat) = 4 + 4 from rfl, upcoming_add] at h
  exact List.append_inj h (by simp [ha])

/-! ### The instructions that run -/

/-- Nothing turns the instruction away in this state (60_exceptions R190). -/
structure Runs (i : Instr) (s : State) : Prop where
  opcode : i.isReserved = false
  operand : i.wellFormed = true
  other : ∀ opd, i ≠ .begin opd
  ready : s.mode = .ready
  emitted : emits i s = true

/-- A wire frame as an instruction sends its one frame, where the block emits it (30_encoding R96). -/
theorem exec_frame_eq {i : Instr} (hi : i.isFrame = true) (s : State) :
    ∃ f, framesOf i s = [f] ∧ exec i s = executeFrame (emits i s) f s := by
  cases i with
  | frameWrDac p => exact ⟨_, rfl, by rw [← encode_dac_write]; rfl⟩
  | frameWrCtrl p => exact ⟨_, rfl, by rw [← encode_ctrl_write]; rfl⟩
  | frameWrClr p => exact ⟨_, rfl, by rw [← encode_clr_write]; rfl⟩
  | frameWrSwctrlLdac => exact ⟨_, rfl, by rw [← encode_load_frame]; rfl⟩
  | frameRdDac => exact ⟨_, rfl, by rw [← encode_dac_read]; rfl⟩
  | frameRdCtrl => exact ⟨_, rfl, by rw [← encode_ctrl_read]; rfl⟩
  | frameNop => exact ⟨_, rfl, by rw [← encode_nop]; rfl⟩
  | _ => cases hi

theorem exec_answers {i : Instr} {s : State} (he : emits i s = true) : ∃ t, exec i s = .next t := by
  cases hi : i.isFrame with
  | false => exact exec_total hi s
  | true =>
    obtain ⟨f, _, h⟩ := exec_frame_eq hi s
    rcases executeFrame_cases (emits i s) f s with ⟨_, hx⟩ | ⟨_, _, hx⟩ | ⟨_, hno, _⟩
    · exact ⟨_, h.trans hx⟩
    · exact ⟨_, h.trans hx⟩
    · rw [he] at hno; cases hno

theorem ran_of_runs {i : Instr} {s : State} (h : Runs i s) : ∃ t, exec i s = .next t ∧ Ran i s t := by
  obtain ⟨t, ht⟩ := exec_answers h.emitted
  rcases exec_cases ht with ⟨hr, _⟩ | ⟨hw, _⟩ | ⟨_, _, _, hm, _⟩ | ⟨_, _, _, _, _, hran⟩ | ⟨opd, hb, _, _⟩
  · rw [h.opcode] at hr; cases hr
  · rw [h.operand] at hw; cases hw
  · rw [h.ready] at hm; cases hm
  · exact ⟨t, ht, hran⟩
  · exact absurd hb (h.other opd)

/-- A command whose frames all go out completes. -/
theorem exec_of_completed {i : Instr} {s s' : State} (h : Runs i s) (hf : i.isFrame = false) (hr : readsBack i = false)
    (hs : sendFrames (framesOf i s) { s with img := imageOf i s.img } = (none, s')) :
    exec i s = .next (complete none { s' with trace := s'.trace ++ pulsesOf i s }) := by
  obtain ⟨t, ht, hran⟩ := ran_of_runs h
  rcases hran with ⟨u, res, _, hu, hres, rfl⟩ | ⟨hframe, _⟩ | ⟨u, e, hu, _⟩
  · rw [hr, Option.isSome_eq_false_iff, Option.isNone_iff_eq_none] at hres
    rw [hs] at hu
    cases hu
    rw [ht, hres]
  · rw [hf] at hframe; cases hframe
  · rw [hs] at hu; cases hu

/-- A wire frame that goes out leaves what sending it leaves. -/
theorem exec_of_sent {i : Instr} {s s' : State} (h : Runs i s) (hf : i.isFrame = true)
    (hs : sendFrames (framesOf i s) s = (none, s')) : exec i s = .next s' := by
  obtain ⟨t, ht, hran⟩ := ran_of_runs h
  rcases hran with ⟨_, _, hcommand, _, _, _⟩ | ⟨_, hu⟩ | ⟨u, e, hu, _⟩
  · rw [hf] at hcommand; cases hcommand
  · rw [hs] at hu; cases hu; exact ht
  · rw [imageOf_frame hf, hs] at hu; cases hu

/-- An instruction one of whose frames fails ends with `Fail(TRANSPORT)` (60_exceptions R194). -/
theorem exec_of_failed {i : Instr} {s s' : State} {e : TransportError} (h : Runs i s)
    (hs : sendFrames (framesOf i s) { s with img := imageOf i s.img } = (some e, s')) :
    exec i s = .next (failTransport e s') := by
  obtain ⟨t, ht, hran⟩ := ran_of_runs h
  rcases hran with ⟨u, _, _, hu, _, _⟩ | ⟨hframe, hu⟩ | ⟨u, e', hu, rfl⟩
  · rw [hs] at hu; cases hu
  · rw [imageOf_frame hframe, hu] at hs; cases hs
  · rw [hs] at hu; cases hu; exact ht

end Sys2Proof.Machine
end

