-- ==== Sys2Proof/Proofs/Setters.lean ====
section
/-! The field setters (43_control R150 to R155, R160): their whole next state in `READY`, and the algebra that follows from the
laws of reading and writing a field. -/

namespace Sys2Proof.Machine

/-- A command that sends no frame and pulses no pin writes its image and completes. -/
theorem exec_of_no_frame {i : Instr} {s : State} (h : Runs i s) (hf : i.isFrame = false) (hr : readsBack i = false)
    (hframes : framesOf i s = []) (hpulse : pulsesOf i s = []) :
    exec i s = .next { s with
      img := imageOf i s.img
      lastCause := .none, responses := s.responses ++ [⟨.none, none, s.status⟩] } := by
  rw [exec_of_completed (s' := { s with img := imageOf i s.img }) h hf hr (by rw [hframes]; rfl), hpulse]
  simp [complete]

theorem runs_of_setterOf {f : Field} {b : Bool} {i : Instr} {s : State} (hi : setterOf f b = some i)
    (hm : s.mode = .ready) : Runs i s := by
  have hw : boolOperandOk (boolOperand b) = true := by cases b <;> rfl
  cases f with
  | sdodis => cases hi
  | _ => cases hi; exact ⟨rfl, hw, by simp, hm, rfl⟩

theorem imageOf_of_setterOf {f : Field} {b : Bool} {i : Instr} (hi : setterOf f b = some i) (img : Word) :
    imageOf i img = fieldWrite f (setterValue f b) img := by
  have hop := operandBool_boolOperand b
  cases f with
  | sdodis => cases hi
  | rbuf => cases hi; rw [imageOf, hop]; cases b <;> rfl
  | _ => cases hi; rw [imageOf, hop]; rfl

/-- The setter of a field writes its value into the field and completes (43_control R150). -/
theorem exec_of_setterOf {f : Field} {b : Bool} {i : Instr} {s : State} (hi : setterOf f b = some i)
    (hm : s.mode = .ready) :
    exec i s = .next { s with
      img := fieldWrite f (setterValue f b) s.img
      lastCause := .none, responses := s.responses ++ [⟨.none, none, s.status⟩] } := by
  have hruns : Runs i s := runs_of_setterOf hi hm
  rw [← imageOf_of_setterOf hi]
  cases f with
  | sdodis => cases hi
  | _ => cases hi; exact exec_of_no_frame hruns rfl rfl rfl rfl

/-- Settles O17: each setter's field write, as R32's mask set or cleared. -/
theorem settersWriteTheirFieldAlone : Obligations.SettersWriteTheirFieldAlone := by
  intro s b hm
  refine ⟨?_, ?_, ?_, ?_, ?_⟩
  · rw [exec_of_setterOf (f := .rbuf) (b := b) rfl hm,
      show setterValue .rbuf b = fieldBit (!b) by cases b <;> rfl, fieldWrite_bit _ (by decide)]
    cases b <;> rfl
  · rw [exec_of_setterOf (f := .opgnd) (b := b) rfl hm, show setterValue .opgnd b = fieldBit b from rfl,
      fieldWrite_bit _ (by decide)]
    rfl
  · rw [exec_of_setterOf (f := .dactri) (b := b) rfl hm, show setterValue .dactri b = fieldBit b from rfl,
      fieldWrite_bit _ (by decide)]
    rfl
  · rw [exec_of_setterOf (f := .bin2sc) (b := b) rfl hm, show setterValue .bin2sc b = fieldBit b from rfl,
      fieldWrite_bit _ (by decide)]
    rfl
  · rw [exec_of_setterOf (f := .lincomp) (b := b) rfl hm, show setterValue .lincomp b = rangeCode b from rfl,
      fieldWrite_range]

/-! ### The algebra -/

theorem setterValue_fits (f : Field) (b : Bool) : (setterValue f b).toNat < 2 ^ fieldWidth f := by
  cases f <;> cases b <;> decide

/-- A write changes nothing exactly where the field holds the value already. -/
theorem fieldWrite_eq_self_iff {f : Field} {val : BitVec 4} (hv : val.toNat < 2 ^ fieldWidth f) (img : Word) :
    fieldWrite f val img = img ↔ fieldRead f img = val := by
  constructor
  · intro h; rw [← h, fieldRead_write hv]
  · rintro rfl; exact fieldWrite_read f img

/-- Writes of two fields commute: no bit lies in both. -/
theorem fieldWrite_comm {f g : Field} (h : f ≠ g) (a b : BitVec 4) (img : Word) :
    fieldWrite g b (fieldWrite f a img) = fieldWrite f a (fieldWrite g b img) := by
  apply BitVec.eq_of_getLsbD_eq; intro k hk
  have hdisj := field_places_disjoint h k
  simp only [fieldWrite_getLsbD _ _ _ k hk]
  split_ifs with hg hf
  · exact absurd ⟨hf, hg⟩ hdisj
  · rfl
  · rfl
  · rfl

/-- Settles O18: two writes of one field leave the last, and writes of two fields commute; the image is restored where the
field held the false setting's value. -/
theorem setterAlgebraHolds : Obligations.SetterAlgebraHolds := by
  refine ⟨fun f a b i j s hi hj hm => ?_, fun f g a b i j s hne hi hj hm => ?_⟩
  · refine ⟨_, _, _, exec_of_setterOf hi hm, exec_of_setterOf hj (by exact hm), exec_of_setterOf hj hm, ?_, ?_, ?_⟩
    · exact fieldWrite_write f _ _ s.img
    · exact fieldWrite_and_not_mask f _ s.img
    · rintro rfl rfl
      rw [fieldWrite_write, fieldWrite_eq_self_iff (setterValue_fits f false)]
  · exact ⟨_, _, _, _, exec_of_setterOf hi hm, exec_of_setterOf hj (by exact hm), exec_of_setterOf hj hm,
      exec_of_setterOf hi (by exact hm), fieldWrite_comm hne _ _ s.img⟩

end Sys2Proof.Machine
end

