-- ==== Sys2Proof/Proofs/Completions.lean ====
section
/-! The commands and the wire frames, completed (41_begin R130, 42_value R140 to R146, 43_control R156 to R159): the whole next
state where the transport's answers are good, and the wire frames that no command sends. -/

namespace Sys2Proof.Machine

/-! ### `BEGIN` -/

/-- The body of `BEGIN` runs in either mode (60_exceptions R202). -/
theorem exec_begin_boolOperand (b : Bool) (s : State) :
    exec (.begin (boolOperand b)) s = .next (finish (noResult (beginBody b s))) := by
  rw [exec, execBegin, execute_run (operandLegal_bool b) rfl, operandBool_boolOperand]

/-- Settles O24: the pin events and the mode, and the call between them where it was asked for and answered well. -/
theorem beginCompletes : Obligations.BeginCompletes := by
  refine fun s => ⟨?_, fun x hx => ?_⟩
  · rw [show (0#32 : Word) = boolOperand false from rfl, exec_begin_boolOperand, beginBody_false]
    rfl
  · have hd : (draw s).1 = .ok x := List.head_eq_of_cons_eq hx
    rw [show (1#32 : Word) = boolOperand true from rfl, exec_begin_boolOperand, beginBody_true, hd]
    simp [noResult, finish, complete, afterDraws_eq]

/-- Settles O25: the failed call comes after the pin events and before the mode. -/
theorem beginFailureKeepsTheMode : Obligations.BeginFailureKeepsTheMode := by
  intro s e he
  have hd : (draw s).1 = .err e := List.head_eq_of_cons_eq he
  rw [show (1#32 : Word) = boolOperand true from rfl, exec_begin_boolOperand, beginBody_true, hd]
  simp [noResult, finish, failTransport, fail, raiseFlag, causeFlag, afterDraws_eq]

/-! ### One frame -/

/-- A command of one frame, completed. -/
theorem exec_of_one_frame {i : Instr} {s : State} {f : Frame} {x i2 i1 i0 : Byte} (h : Runs i s) (hf : i.isFrame = false)
    (hr : readsBack i = false) (hframes : framesOf i s = [f]) (hu : upcoming 4 s = [.ok x, .ok i2, .ok i1, .ok i0]) :
    exec i s = .next { afterDraws 4 s with
      img := imageOf i s.img
      trace := s.trace ++ frameEvents s.cfg f i2 i1 i0 ++ pulsesOf i s
      lastCause := .none, responses := s.responses ++ [⟨.none, none, s.status⟩] } := by
  have hs : sendFrames (framesOf i s) { s with img := imageOf i s.img } = _ :=
    (congrArg (sendFrames · _) hframes).trans (sendFrames_cons_ok f [] ((upcoming_img 4 _ s).trans hu))
  rw [exec_of_completed h hf hr hs]
  simp [complete, afterDraws_eq]

/-- Settles O27: one frame, and the pulse of the pin there is. -/
theorem setValueCompletesWithPinPulse : Obligations.SetValueCompletesWithPinPulse := by
  intro s v p x i2 i1 i0 hm hp hu
  rw [exec_of_one_frame ⟨rfl, rfl, by simp, hm, rfl⟩ rfl rfl (by rw [framesOf, hp]) hu, pulsesOf, hp]
  simp [imageOf, afterDraws_eq]

/-- Settles O29: one frame and no pulse. -/
theorem setClearCodeCompletesWithoutCommit : Obligations.SetClearCodeCompletesWithoutCommit := by
  intro s v x i2 i1 i0 hm hu
  rw [exec_of_one_frame ⟨rfl, rfl, by simp, hm, rfl⟩ rfl rfl rfl hu]
  simp [imageOf, pulsesOf, afterDraws_eq]

/-- Settles O32: one frame, of the image as it is. -/
theorem updateControlRegisterCompletes : Obligations.UpdateControlRegisterCompletes := by
  intro s x i2 i1 i0 hm hu
  rw [exec_of_one_frame ⟨rfl, rfl, by simp, hm, rfl⟩ rfl rfl rfl hu]
  simp [imageOf, pulsesOf, afterDraws_eq]

/-- Settles O33: one frame, of the image with clamp and tristate cleared. -/
theorem enableOutputAndResetComplete : Obligations.EnableOutputAndResetComplete := by
  intro s x i2 i1 i0 hm hu
  constructor
  · rw [exec_of_one_frame ⟨rfl, rfl, by simp, hm, rfl⟩ rfl rfl rfl hu]
    simp only [imageOf, fieldWrite_sequence, pulsesOf, List.append_nil]
  · rw [exec_of_one_frame ⟨rfl, rfl, by simp, hm, rfl⟩ rfl rfl rfl hu]
    simp only [imageOf, fieldWrite_sequence, pulsesOf, List.append_nil]

/-- Settles O34: the two opcodes have one body. -/
theorem resetActsAsEnableOutput : Obligations.ResetActsAsEnableOutput := by
  intro opd s
  rfl

/-! ### Two frames -/

/-- Two frames with eight good answers: the first takes four of them, the second the next four. -/
theorem sendFrames_two_ok (f g : Frame) {s : State} {x i2 i1 i0 y j2 j1 j0 : Byte}
    (hu : upcoming 8 s = [.ok x, .ok i2, .ok i1, .ok i0, .ok y, .ok j2, .ok j1, .ok j0]) :
    sendFrames [f, g] s = (none, { afterDraws 8 s with
      trace := s.trace ++ frameEvents s.cfg f i2 i1 i0 ++ frameEvents s.cfg g j2 j1 j0 }) := by
  obtain ⟨hfirst, hsecond⟩ :=
    upcoming_eight (as := [.ok x, .ok i2, .ok i1, .ok i0]) (bs := [.ok y, .ok j2, .ok j1, .ok j0]) hu rfl
  rw [sendFrames_cons_ok f _ hfirst, sendFrames_cons_ok g [] ((upcoming_trace 4 _ _).trans hsecond)]
  simp [sendFrames, afterDraws_eq]

/-- Settles O28: the value frame and the load frame, and no pin to pulse. -/
theorem setValueCompletesWithLoadFrame : Obligations.SetValueCompletesWithLoadFrame := by
  intro s v x i2 i1 i0 y j2 j1 j0 hm hp hu
  have hframes : framesOf (.setValue v) s = [0x1#4 ++ scaleValue s.cfg.offset v, 0x400001#24] := by rw [framesOf, hp]
  have hs := (congrArg (sendFrames · s) hframes).trans (sendFrames_two_ok _ _ hu)
  rw [exec_of_completed ⟨rfl, rfl, by simp, hm, rfl⟩ rfl rfl hs, pulsesOf, hp]
  simp [complete, afterDraws_eq]

/-- The high four bits of three bytes are those of the first (40_codec R112). -/
theorem extractLsb'_echo (b2 b1 b0 : Byte) : (b2 ++ b1 ++ b0).extractLsb' 20 4 = b2.extractLsb' 4 4 := by
  apply BitVec.eq_of_getLsbD_eq; intro k hk
  simp only [BitVec.getLsbD_extractLsb', BitVec.getLsbD_append]
  interval_cases k <;> rfl

theorem exec_readValue {s : State} (hm : s.mode = .ready) :
    exec (.readValue 0#32) s = .next (finish (readValueBody s)) := by
  rw [exec, execReadValue, execute_run rfl (by rw [hm]; rfl)]

theorem exec_readControlRegister {s : State} (hm : s.mode = .ready) :
    exec (.readControlRegister 0#32) s = .next (finish (readControlBody s)) := by
  rw [exec, execReadControlRegister, execute_run rfl (by rw [hm]; rfl)]

/-- Settles O30: the read primitive with eight good answers, and the data descaled. -/
theorem readValueCompletes : Obligations.ReadValueCompletes := by
  intro s x i2 i1 i0 y j2 j1 j0 hm hu
  rw [exec_readValue hm, readValueBody, readReg_of_ok .dac hu, encode_dac_read, ← extractLsb'_echo j2 j1 j0]
  simp [finish, complete, decodeReadback, descaleValue, afterDraws_eq]

/-- Settles O31: the read primitive with eight good answers, and the data as they came. -/
theorem readControlRegisterCompletes : Obligations.ReadControlRegisterCompletes := by
  intro s x i2 i1 i0 y j2 j1 j0 hm hu
  rw [exec_readControlRegister hm, readControlBody, readReg_of_ok .ctrl hu, encode_ctrl_read, ← extractLsb'_echo j2 j1 j0]
  simp [finish, complete, decodeReadback, afterDraws_eq]

/-! ### The wire frames -/

/-- The seven wire frames with the payloads that the block sends in this state, and their words (30_encoding R96). -/
def emittedFrames (s : State) (v : Word) : List (Instr × Frame) := [
  (.frameWrDac (scaleValue s.cfg.offset v), 0x1#4 ++ scaleValue s.cfg.offset v),
  (.frameWrCtrl (s.img.extractLsb' 0 20), 0x2#4 ++ s.img.extractLsb' 0 20),
  (.frameWrClr (scaleValue s.cfg.offset v), 0x3#4 ++ scaleValue s.cfg.offset v),
  (.frameWrSwctrlLdac, 0x400001#24), (.frameRdDac, 0x900000#24), (.frameRdCtrl, 0xA00000#24),
  (.frameNop, 0x000000#24)]

/-- In `READY` each of them runs, the load frame in a block without a load-strobe pin (42_value R142). -/
theorem runs_of_emittedFrames {s : State} {v : Word} {i : Instr} {f : Frame} (hm : s.mode = .ready)
    (hi : (i, f) ∈ emittedFrames s v) (hload : i = .frameWrSwctrlLdac → s.cfg.ldacPin = none) :
    Runs i s ∧ i.isFrame = true ∧ framesOf i s = [f] := by
  have hvalue : valuePayloadEmitted (scaleValue s.cfg.offset v) s = true := valuePayloadEmitted_iff.mpr ⟨v, rfl⟩
  simp only [emittedFrames, List.mem_cons, Prod.mk.injEq, List.not_mem_nil, or_false] at hi
  rcases hi with ⟨rfl, rfl⟩ | ⟨rfl, rfl⟩ | ⟨rfl, rfl⟩ | ⟨rfl, rfl⟩ | ⟨rfl, rfl⟩ | ⟨rfl, rfl⟩ | ⟨rfl, rfl⟩
  · exact ⟨⟨rfl, rfl, by simp, hm, hvalue⟩, rfl, rfl⟩
  · exact ⟨⟨rfl, rfl, by simp, hm, by simp [emits, imagePayloadEmitted]⟩, rfl, rfl⟩
  · exact ⟨⟨rfl, rfl, by simp, hm, hvalue⟩, rfl, rfl⟩
  · exact ⟨⟨rfl, rfl, by simp, hm, by simp [emits, loadFrameEmitted, hload]⟩, rfl, rfl⟩
  · exact ⟨⟨rfl, rfl, by simp, hm, rfl⟩, rfl, rfl⟩
  · exact ⟨⟨rfl, rfl, by simp, hm, rfl⟩, rfl, rfl⟩
  · exact ⟨⟨rfl, rfl, by simp, hm, rfl⟩, rfl, rfl⟩

/-- Settles O35: a frame that runs sends its one frame and does nothing more. -/
theorem wireFramesComplete : Obligations.WireFramesComplete := by
  intro s v x i2 i1 i0 hm hu i f hi hload
  obtain ⟨hruns, hframe, hframes⟩ := runs_of_emittedFrames hm hi hload
  exact exec_of_sent hruns hframe (by rw [hframes, sendFrames_cons_ok f [] hu, sendFrames])

/-- In `READY` a wire frame is refused exactly where the block does not emit it. -/
theorem exec_frame_refused_iff {i : Instr} {s : State} (hi : i.isFrame = true) (hm : s.mode = .ready) :
    exec i s = .refused .frameNeverEmitted ↔ emits i s = false := by
  obtain ⟨f, _, h⟩ := exec_frame_eq hi s
  rcases executeFrame_cases (emits i s) f s with ⟨hun, _⟩ | ⟨_, he, hx⟩ | ⟨_, he, hx⟩
  · rw [hm] at hun; cases hun
  · rw [h, hx, he]; simp
  · rw [h, hx, he]; simp

theorem valuePayloadEmitted_eq_false_iff {p : Payload} {s : State} :
    valuePayloadEmitted p s = false ↔ ∀ v, scaleValue s.cfg.offset v ≠ p := by
  rw [← Bool.not_eq_true, valuePayloadEmitted_iff, not_exists]

/-- Settles O36: which frames the block does not emit, frame by frame. -/
theorem wireFramesNeverEmittedAreRefused : Obligations.WireFramesNeverEmittedAreRefused := by
  intro i s hi hm
  rw [exec_frame_refused_iff hi hm]
  cases i with
  | frameWrDac p => simp [emits, valuePayloadEmitted_eq_false_iff]
  | frameWrClr p => simp [emits, valuePayloadEmitted_eq_false_iff]
  | frameWrCtrl p => simp [emits, imagePayloadEmitted]
  | frameWrSwctrlLdac => simp [emits, loadFrameEmitted, Option.isSome_iff_ne_none]
  | frameRdDac | frameRdCtrl | frameNop => simp [emits]
  | _ => cases hi

end Sys2Proof.Machine
end

