-- ==== Sys2Proof/Proofs/Failures.lean ====
section
/-! Instructions that fail (60_exceptions R194, R195): at their first frame, at their second, and wire frames before `BEGIN`. -/

namespace Sys2Proof.Machine

/-- An instruction that fails at its first frame: the cut frame, and `Fail(TRANSPORT)` (60_exceptions R194). -/
theorem exec_of_first_frame_cut {i : Instr} {s : State} {f : Frame} {fs : List Frame} {n : Nat} {e : TransportError}
    (h : Runs i s) (hframes : framesOf i s = f :: fs) (h1 : 1 ≤ n) (h4 : n ≤ 4) (he : endsAtFirstError (upcoming n s) e) :
    exec i s = .next { afterDraws n s with
      img := imageOf i s.img
      trace := s.trace ++ cutFrameEvents s.cfg f (upcoming n s)
      terr := some e, lastCause := .transport, status := s.status ||| 0b1000#4
      responses := s.responses ++ [⟨.transport, none, s.status ||| 0b1000#4⟩] } := by
  have hu := upcoming_img n (imageOf i s.img) s
  have hs : sendFrames (framesOf i s) { s with img := imageOf i s.img } = _ :=
    (congrArg (sendFrames · _) hframes).trans (sendFrames_cons_err f fs h1 h4 (by rw [hu]; exact he))
  rw [exec_of_failed h hs]
  simp [failTransport, fail, raiseFlag, causeFlag, afterDraws_eq, hu]

/-- The same for an instruction that keeps the image. -/
theorem exec_of_first_frame_cut_keeping {i : Instr} {s : State} {f : Frame} {fs : List Frame} {n : Nat}
    {e : TransportError} (h : Runs i s) (himg : imageOf i s.img = s.img) (hframes : framesOf i s = f :: fs) (h1 : 1 ≤ n)
    (h4 : n ≤ 4) (he : endsAtFirstError (upcoming n s) e) :
    exec i s = .next { afterDraws n s with
      trace := s.trace ++ cutFrameEvents s.cfg f (upcoming n s)
      terr := some e, lastCause := .transport, status := s.status ||| 0b1000#4
      responses := s.responses ++ [⟨.transport, none, s.status ||| 0b1000#4⟩] } := by
  rw [exec_of_first_frame_cut h hframes h1 h4 he, himg]
  simp [afterDraws_eq]

/-- Settles O42: each of the five commands sends this frame first and keeps the image. -/
theorem oneFrameCommandsFailOnTheBus : Obligations.OneFrameCommandsFailOnTheBus := by
  intro s n e v hm h1 h4 he i f hi
  simp only [List.mem_cons, Prod.mk.injEq, List.not_mem_nil, or_false] at hi
  rcases hi with ⟨rfl, rfl⟩ | ⟨rfl, rfl⟩ | ⟨rfl, rfl⟩ | ⟨rfl, rfl⟩ | ⟨rfl, rfl⟩ <;>
    exact exec_of_first_frame_cut_keeping ⟨rfl, rfl, by simp, hm, rfl⟩ rfl rfl h1 h4 he

/-- Settles O43: a frame that the block emits runs, and it is the first and the only one. -/
theorem wireFramesFailOnTheBus : Obligations.WireFramesFailOnTheBus := by
  intro s n e v hm h1 h4 he i f hi hload
  obtain ⟨hruns, hframe, hframes⟩ := runs_of_emittedFrames hm hi hload
  exact exec_of_first_frame_cut_keeping hruns (imageOf_frame hframe _) hframes h1 h4 he

/-- Settles O44: the field writes come before the frame, which carries the new image. -/
theorem failedEnableOutputKeepsItsFieldWrites : Obligations.FailedEnableOutputKeepsItsFieldWrites := by
  intro s n e i hm h1 h4 he hi
  rcases hi with rfl | rfl <;>
    rw [exec_of_first_frame_cut ⟨rfl, rfl, by simp, hm, rfl⟩ rfl h1 h4 he, imageOf, fieldWrite_sequence]

/-- Two frames of which the first goes out whole and the second is cut. -/
theorem sendFrames_second_cut (f g : Frame) {s : State} {x i2 i1 i0 : Byte} {n : Nat} {e : TransportError}
    (hu : upcoming 4 s = [.ok x, .ok i2, .ok i1, .ok i0]) (h1 : 1 ≤ n) (h4 : n ≤ 4)
    (he : endsAtFirstError (upcoming n (afterDraws 4 s)) e) :
    sendFrames [f, g] s = (some e, { afterDraws (4 + n) s with
      trace := s.trace ++ frameEvents s.cfg f i2 i1 i0 ++ cutFrameEvents s.cfg g (upcoming n (afterDraws 4 s)) }) := by
  rw [sendFrames_cons_ok f _ hu, sendFrames_cons_err g [] h1 h4 (by rw [upcoming_trace]; exact he), upcoming_trace,
    afterDraws_add]
  simp [afterDraws_eq]

/-- A command of two frames that fails at the second. -/
theorem exec_of_second_frame_cut {i : Instr} {s : State} {f g : Frame} {x i2 i1 i0 : Byte} {n : Nat}
    {e : TransportError} (h : Runs i s) (himg : imageOf i s.img = s.img) (hframes : framesOf i s = [f, g])
    (hu : upcoming 4 s = [.ok x, .ok i2, .ok i1, .ok i0]) (h1 : 1 ≤ n) (h4 : n ≤ 4)
    (he : endsAtFirstError (upcoming n (afterDraws 4 s)) e) :
    exec i s = .next { afterDraws (4 + n) s with
      trace := s.trace ++ frameEvents s.cfg f i2 i1 i0 ++ cutFrameEvents s.cfg g (upcoming n (afterDraws 4 s))
      terr := some e, lastCause := .transport, status := s.status ||| 0b1000#4
      responses := s.responses ++ [⟨.transport, none, s.status ||| 0b1000#4⟩] } := by
  rw [exec_of_failed h (by rw [himg, hframes]; exact sendFrames_second_cut f g hu h1 h4 he)]
  simp [failTransport, fail, raiseFlag, causeFlag, afterDraws_eq]

/-- Settles O45: the three commands of two frames, `SET_VALUE` where there is no pin. -/
theorem secondFrameFailureKeepsTheFirst : Obligations.SecondFrameFailureKeepsTheFirst := by
  intro s n e v x i2 i1 i0 hm hu h1 h4 he i f g hi hpin
  simp only [List.mem_cons, Prod.mk.injEq, List.not_mem_nil, or_false] at hi
  rcases hi with ⟨rfl, rfl, rfl⟩ | ⟨rfl, rfl, rfl⟩ | ⟨rfl, rfl, rfl⟩
  · exact exec_of_second_frame_cut ⟨rfl, rfl, by simp, hm, rfl⟩ rfl (by rw [framesOf, hpin v rfl]) hu h1 h4 he
  · exact exec_of_second_frame_cut ⟨rfl, rfl, by simp, hm, rfl⟩ rfl rfl hu h1 h4 he
  · exact exec_of_second_frame_cut ⟨rfl, rfl, by simp, hm, rfl⟩ rfl rfl hu h1 h4 he

/-- Settles O40: in `UNCONFIGURED` the mode check comes before the frame. -/
theorem wireFramesBeforeBeginFail : Obligations.WireFramesBeforeBeginFail := by
  intro i s hi hm
  obtain ⟨f, _, h⟩ := exec_frame_eq hi s
  rcases executeFrame_cases (emits i s) f s with ⟨_, hx⟩ | ⟨hready, _, _⟩ | ⟨hready, _, _⟩
  · rw [h, hx]; rfl
  · rw [hm] at hready; cases hready
  · rw [hm] at hready; cases hready

end Sys2Proof.Machine
end

