-- ==== Sys2Proof/Proofs/Ends.lean ====
section
/-! Rules of every instruction's end (60_exceptions R190 to R199, 10_state R41): the calls it makes and where it stops, its one
response and the cause in it, the events it appends, and what it leaves as it was. -/

namespace Sys2Proof.Machine

/-! ### The calls -/

/-- Where an instruction stops: it took `n` answers, one after another, all good, or the last one an error. -/
inductive Stops (i : Instr) (s t : State) : Prop where
  | good (n : Nat) (hn : n ≤ 8) (hanswers : t.answers = (afterDraws n s).answers) (hdraws : t.draws = (afterDraws n s).draws)
      (hgood : (upcoming n s).all replyOk = true) (hterr : t.terr = s.terr)
      (hflag : t.status.getLsbD 3 = s.status.getLsbD 3) (hcause : i.isFrame = false → t.lastCause ≠ .transport)
  | cut (n : Nat) (e : TransportError) (s' : State) (hn : n ≤ 8) (hanswers : s'.answers = (afterDraws n s).answers)
      (hdraws : s'.draws = (afterDraws n s).draws) (hfirst : endsAtFirstError (upcoming n s) e)
      (hstatus : s'.status = s.status) (hresponses : s'.responses = s.responses) (ht : t = failTransport e s')

/-- The flag of every cause but the transport's is another bit (60_exceptions R191). -/
theorem raiseFlag_getLsbD_three {c : Cause} (hc : c ≠ .transport) (status : BitVec 4) :
    (raiseFlag c status).getLsbD 3 = status.getLsbD 3 := by
  cases c with
  | transport => exact absurd rfl hc
  | _ => simp [raiseFlag, causeFlag]

theorem stops_of_fail {i : Instr} {c : Cause} (hc : c ≠ .transport) (s : State) : Stops i s (fail c s) :=
  .good 0 (by decide) rfl rfl rfl rfl (raiseFlag_getLsbD_three hc s.status) (fun _ => hc)

/-- Sending an instruction's frames takes at most eight answers, up to the first error. -/
theorem sendFrames_calls {i : Instr} {s s' : State} {img : Word} {r : Option TransportError}
    (hs : sendFrames (framesOf i s) { s with img := img } = (r, s')) :
    ∃ n, n ≤ 8 ∧ s'.answers = (afterDraws n s).answers ∧ s'.draws = (afterDraws n s).draws ∧
      s'.responses = s.responses ∧
      ((r = none ∧ (upcoming n s).all replyOk = true) ∨ ∃ e, r = some e ∧ endsAtFirstError (upcoming n s) e) := by
  obtain ⟨n, evs, hn, _, hstate, hcase⟩ := sendFrames_effect (framesOf i s) { s with img := img }
  have hlen := framesOf_length_le i s
  rw [hs] at hstate hcase
  rw [upcoming_img] at hcase
  subst hstate
  exact ⟨n, by omega, by simp [afterDraws_eq], by simp [afterDraws_eq], by simp [afterDraws_eq], hcase⟩

theorem stops_of_ran {i : Instr} {s t : State} (h : Ran i s t) : Stops i s t := by
  rcases h with ⟨s', res, _, hs, _, rfl⟩ | ⟨hi, hs⟩ | ⟨s', e, hs, rfl⟩
  · obtain ⟨n, hn, ha, hd, _, ⟨_, hgood⟩ | ⟨e, he, _⟩⟩ := sendFrames_calls hs
    · obtain ⟨hstatus, _, hterr⟩ := sendFrames_registers hs
      exact .good n hn ha hd hgood hterr (by rw [complete_status, hstatus]) (fun _ => by simp)
    · cases he
  · obtain ⟨n, hn, ha, hd, _, ⟨_, hgood⟩ | ⟨e, he, _⟩⟩ := sendFrames_calls (img := s.img) hs
    · obtain ⟨hstatus, _, hterr⟩ := sendFrames_registers hs
      exact .good n hn ha hd hgood hterr (by rw [hstatus]) (fun hf => by rw [hf] at hi; cases hi)
    · cases he
  · obtain ⟨n, hn, ha, hd, hresp, ⟨hnone, _⟩ | ⟨e', he, hfirst⟩⟩ := sendFrames_calls hs
    · cases hnone
    · cases he
      exact .cut n e s' hn ha hd hfirst (sendFrames_registers hs).1 hresp rfl

theorem stops_of_began {i : Instr} {opd : Word} {s t : State} (h : Began opd s t) : Stops i s t := by
  rcases h with ⟨_, rfl⟩ | ⟨_, x, hd, rfl⟩ | ⟨_, e, hd, rfl⟩
  · exact .good 0 (by decide) rfl rfl rfl rfl rfl (fun _ => by simp)
  · have hgood : (upcoming 1 s).all replyOk = true := by simp [upcoming, hd, replyOk]
    exact .good 1 (by decide) rfl rfl hgood (by simp [afterDraws_eq]) (by simp [afterDraws_eq]) (fun _ => by simp)
  · refine .cut 1 e _ (by decide) ?_ ?_ ⟨[], by simp [upcoming, hd], rfl⟩ ?_ ?_ rfl
    all_goals simp [afterDraws_eq]

theorem exec_stops {i : Instr} {s t : State} (h : exec i s = .next t) : Stops i s t := by
  rcases exec_cases h with ⟨_, rfl⟩ | ⟨_, rfl⟩ | ⟨_, _, _, _, rfl⟩ | ⟨_, _, _, _, _, hran⟩ | ⟨_, _, _, hbegan⟩
  · exact stops_of_fail (by simp) s
  · exact stops_of_fail (by simp) s
  · exact stops_of_fail (by simp) s
  · exact stops_of_ran hran
  · exact stops_of_began hbegan

/-- Settles O46: an instruction's frames need at most eight calls, and sending stops at the first error. -/
theorem commandsStopAtTheFirstTransportError : Obligations.CommandsStopAtTheFirstTransportError := by
  intro i s t h
  rcases exec_stops h with
    ⟨n, hn, ha, hd, hgood, hterr, hflag, _⟩ | ⟨n, e, s', hn, ha, hd, hfirst, hstatus, hresp, rfl⟩
  · exact ⟨n, hn, ha, hd, .inl ⟨hgood, hterr, hflag⟩⟩
  · refine ⟨n, hn, ha, hd, .inr ⟨e, hfirst, rfl, rfl, ?_, ?_⟩⟩
    · rw [failTransport_status, hstatus]; rfl
    · rw [failTransport_responses, hstatus, hresp]; rfl

/-! ### The response -/

/-- A command appends one response, with the cause and the flags it leaves; the result is a completed read's. -/
theorem exec_response {i : Instr} {s t : State} (h : exec i s = .next t) (hi : i.isFrame = false) :
    ∃ res, t.responses = s.responses ++ [⟨t.lastCause, res, t.status⟩] ∧
      (res.isSome = true ↔ t.lastCause = .none ∧ readsBack i = true) := by
  rcases exec_summary h with ⟨c, rfl, hc⟩ | ⟨opd, rfl, _, hb⟩ | ⟨_, _, _, _, _, n, evs, _, hend⟩
  · have hne : c ≠ .none := by rcases hc with ⟨rfl, _⟩ | ⟨rfl, _⟩ | ⟨rfl, _⟩ <;> simp
    exact ⟨none, rfl, by simp [hne]⟩
  · rcases hb with ⟨_, rfl⟩ | ⟨_, _, _, rfl⟩ | ⟨_, e, _, rfl⟩
    · exact ⟨none, rfl, by simp [readsBack]⟩
    · exact ⟨none, by simp [afterDraws_eq], by simp [readsBack]⟩
    · exact ⟨none, by simp [afterDraws_eq], by simp⟩
  · rcases hend with ⟨_, res, hres, rfl⟩ | ⟨hframe, _⟩ | ⟨e, rfl⟩
    · exact ⟨res, by simp [afterDraws_eq], by simp [hres]⟩
    · rw [hi] at hframe; cases hframe
    · exact ⟨none, by simp [afterDraws_eq], by simp⟩

/-- An instruction that runs is not turned away: it completes or fails on the transport. -/
theorem lastCause_of_ran {i : Instr} {s t : State} (h : Ran i s t) (hi : i.isFrame = false) :
    t.lastCause = .none ∨ t.lastCause = .transport := by
  rcases h with ⟨_, _, _, _, _, rfl⟩ | ⟨hframe, _⟩ | ⟨_, _, _, rfl⟩
  · exact .inl rfl
  · rw [hi] at hframe; cases hframe
  · exact .inr rfl

theorem lastCause_of_began {opd : Word} {s t : State} (h : Began opd s t) :
    t.lastCause = .none ∨ t.lastCause = .transport := by
  rcases h with ⟨_, rfl⟩ | ⟨_, _, _, rfl⟩ | ⟨_, _, _, rfl⟩
  · exact .inl rfl
  · exact .inl rfl
  · exact .inr rfl

/-- Which commands are turned away, cause by cause (60_exceptions R199). -/
theorem lastCause_iffs {i : Instr} {s t : State} (h : exec i s = .next t) (hi : i.isFrame = false) :
    (t.lastCause = .illegalOpcode ↔ i.isReserved = true) ∧
    (t.lastCause = .illegalOperand ↔ i.wellFormed = false) ∧
    (t.lastCause = .notReady ↔
      i.isReserved = false ∧ i.wellFormed = true ∧ (∀ opd, i ≠ .begin opd) ∧ s.mode = .unconfigured) := by
  rcases exec_cases h with ⟨hr, rfl⟩ | ⟨hw, rfl⟩ | ⟨hr, hw, hb, hm, rfl⟩ | ⟨hr, hw, _, hm, _, hran⟩ | ⟨opd, rfl, hw, hbegan⟩
  · simp [hr, wellFormed_of_isReserved hr]
  · have hr : i.isReserved = false := by
      by_contra hne
      rw [wellFormed_of_isReserved (eq_true_of_ne_false hne)] at hw; cases hw
    simp [hr, hw]
  · simp [hr, hw, hm, hb]
  · rcases lastCause_of_ran hran hi with hc | hc <;> simp [hc, hr, hw, hm]
  · have hwf : (Instr.begin opd).wellFormed = true := hw
    rcases lastCause_of_began hbegan with hc | hc <;> simp [hc, hwf, Instr.isReserved]

theorem transport_answered {i : Instr} {s t : State} (h : exec i s = .next t) (hi : i.isFrame = false)
    (hc : t.lastCause = .transport) : ∃ n e, n ≤ 8 ∧ endsAtFirstError (upcoming n s) e := by
  rcases exec_stops h with ⟨_, _, _, _, _, _, _, hcause⟩ | ⟨n, e, _, hn, _, _, hfirst, _, _, _⟩
  · exact absurd hc (hcause hi)
  · exact ⟨n, e, hn, hfirst⟩

/-- The codes of R191 tell the causes apart. -/
theorem causeCode_inj {c d : Cause} : causeCode c = causeCode d ↔ c = d := by
  cases c <;> cases d <;> decide

theorem causeCode_le (c : Cause) : (causeCode c).toNat ≤ 4 := by
  cases c <;> decide

theorem readsBack_iff (i : Instr) : readsBack i = true ↔ ∃ opd, i = .readValue opd ∨ i = .readControlRegister opd := by
  cases i <;> simp [readsBack]

/-- Settles O49: the one response of each end, its code read as the cause, and the ground for each cause. -/
theorem everyCommandReturnsOneResponse : Obligations.EveryCommandReturnsOneResponse := by
  intro i s t h hi
  obtain ⟨res, hresp, hres⟩ := exec_response h hi
  obtain ⟨hopcode, hoperand, hnotReady⟩ := lastCause_iffs h hi
  refine ⟨_, hresp, rfl, rfl, ?_, ?_, ?_, ?_, ?_, ?_⟩
  · rw [show (0x0#4) = causeCode .none from rfl, causeCode_inj, ← readsBack_iff]; exact hres
  · rw [show (0x1#4) = causeCode .illegalOpcode from rfl, causeCode_inj]; exact hopcode
  · rw [show (0x2#4) = causeCode .illegalOperand from rfl, causeCode_inj]; exact hoperand
  · rw [show (0x3#4) = causeCode .notReady from rfl, causeCode_inj]; exact hnotReady
  · rw [show (0x4#4) = causeCode .transport from rfl, causeCode_inj]; exact transport_answered h hi
  · exact causeCode_le t.lastCause

/-! ### The events -/

/-- Two frames, or one frame and a pulse, are the most an instruction emits beside `BEGIN`. -/
theorem framesOf_pulsesOf_length_le (i : Instr) (s : State) :
    7 * (framesOf i s).length + (pulsesOf i s).length ≤ 14 := by
  cases i with
  | setValue v => cases hl : s.cfg.ldacPin <;> simp [framesOf, pulsesOf, hl]
  | _ => simp [framesOf, pulsesOf]

theorem beginEvents_length_le (c : Cfg) (opd : Word) (answer : Option Ack) : (beginEvents c opd answer).length ≤ 5 := by
  have hpins : (beginPinEvents c).length ≤ 4 := by cases hl : c.ldacPin <;> simp [beginPinEvents, hl]
  have hcall : answer.toList.length ≤ 1 := by cases answer <;> simp
  unfold beginEvents
  split
  · simp only [List.length_append, List.length_map]; omega
  · simp

/-- Settles O51: seven events a frame, two a pulse; four pin events and a call for `BEGIN`. -/
theorem everyCommandAppendsFewEvents : Obligations.EveryCommandAppendsFewEvents := by
  intro i s t h
  rcases exec_summary h with ⟨c, rfl, _⟩ | ⟨opd, rfl, _, _⟩ | ⟨_, _, _, hb, _, n, evs, hlen, hend⟩
  · exact ⟨[], by simp, by simp, by simp⟩
  · have hfive := beginEvents_length_le s.cfg opd (beginAnswer opd s)
    exact ⟨_, (exec_begin_effect h).trace, by omega, fun _ _ => hfive⟩
  · have hmost := framesOf_pulsesOf_length_le i s
    have hbegin : ∀ (evs' : List Event) opd, i = .begin opd → evs'.length ≤ 5 := fun _ opd hi => absurd hi (hb opd)
    rcases hend with ⟨_, _, _, rfl⟩ | ⟨_, rfl⟩ | ⟨e, rfl⟩
    · exact ⟨evs ++ pulsesOf i s, by simp, by simp only [List.length_append]; omega, hbegin _⟩
    · exact ⟨evs, rfl, by omega, hbegin _⟩
    · exact ⟨evs, rfl, by omega, hbegin _⟩

/-! ### What stays -/

theorem exec_requests {i : Instr} {s t : State} (h : exec i s = .next t) : t.requests = s.requests := by
  rcases exec_summary h with ⟨c, rfl, _⟩ | ⟨_, _, _, hb⟩ | ⟨_, _, _, _, _, n, evs, _, hend⟩
  · rfl
  · rcases hb with ⟨_, rfl⟩ | ⟨_, _, _, rfl⟩ | ⟨_, e, _, rfl⟩ <;> simp [afterDraws_eq]
  · rcases hend with ⟨_, _, _, rfl⟩ | ⟨_, rfl⟩ | ⟨e, rfl⟩ <;> simp [afterDraws_eq]

/-- An instruction without frames and pulses makes no call and emits nothing, whatever its operand. -/
theorem exec_quiet {i : Instr} {s t : State} (h : exec i s = .next t) (hi : i.isFrame = false)
    (hb : ∀ opd, i ≠ .begin opd) (hframes : framesOf i s = []) (hpulse : pulsesOf i s = []) :
    t.mode = s.mode ∧ t.trace = s.trace ∧ t.answers = s.answers ∧ t.draws = s.draws ∧ t.terr = s.terr := by
  rcases exec_cases h with ⟨_, rfl⟩ | ⟨_, rfl⟩ | ⟨_, _, _, _, rfl⟩ | ⟨_, _, _, _, _, hran⟩ | ⟨opd, hbegin, _, _⟩
  · exact ⟨rfl, rfl, rfl, rfl, rfl⟩
  · exact ⟨rfl, rfl, rfl, rfl, rfl⟩
  · exact ⟨rfl, rfl, rfl, rfl, rfl⟩
  · rcases hran with ⟨s', res, _, hs, _, rfl⟩ | ⟨hframe, _⟩ | ⟨s', e, hs, _⟩
    · rw [hframes] at hs; cases hs
      exact ⟨rfl, by simp [hpulse], rfl, rfl, rfl⟩
    · rw [hi] at hframe; cases hframe
    · rw [hframes] at hs; cases hs
  · exact absurd hbegin (hb opd)

/-- The reserved opcodes and the setters are of that kind. -/
theorem quiet_of_reserved_or_setter {i : Instr} (s : State)
    (h : i.isReserved = true ∨ ∃ opd, i = .setInternalAmplifier opd ∨ i = .setOutputClamp opd ∨ i = .setTristateMode opd ∨
      i = .setOffsetBinary opd ∨ i = .setReferenceInputRange opd) :
    i.isFrame = false ∧ (∀ opd, i ≠ .begin opd) ∧ framesOf i s = [] ∧ pulsesOf i s = [] := by
  rcases h with hr | ⟨opd, rfl | rfl | rfl | rfl | rfl⟩
  · cases i with
    | reservedD _ | reservedE _ | reservedF _ => exact ⟨rfl, by simp, rfl, rfl⟩
    | _ => cases hr
  all_goals exact ⟨rfl, by simp, rfl, rfl⟩

/-- Beside the setters and the two sequences no instruction has an image of its own (10_state R29). -/
theorem exec_img_of_imageOf {i : Instr} {s t : State} (h : exec i s = .next t) (hi : ∀ img, imageOf i img = img) :
    t.img = s.img := by
  rw [exec_img h, hi, ite_self]

theorem imageOf_reserved {i : Instr} (h : i.isReserved = true) (img : Word) : imageOf i img = img := by
  cases i with
  | reservedD _ | reservedE _ | reservedF _ => rfl
  | _ => cases h

/-- The two sequences write two fields (43_control R157, R159). -/
theorem fieldRead_of_sequence {i : Instr} {s t : State} {f : Field} {opd : Word} (h : exec i s = .next t)
    (hi : i = .enableOutput opd ∨ i = .reset opd) (hclamp : f ≠ .opgnd) (htri : f ≠ .dactri) :
    fieldRead f t.img = fieldRead f s.img := by
  have hnone : fieldWrittenBy i f = none := by
    cases f with
    | opgnd => exact absurd rfl hclamp
    | dactri => exact absurd rfl htri
    | _ => rcases hi with rfl | rfl <;> rfl
  rw [fieldRead_of_exec h, hnone, Option.getD_none, ite_self]

/-- Settles O52: group by group, what the instruction's end leaves. -/
theorem instructionsLeaveTheRestUnchanged : Obligations.InstructionsLeaveTheRestUnchanged := by
  intro i s t h
  refine ⟨(exec_appends h).1, exec_requests h, fun hready => ?_, fun hb => ?_, fun hquiet => ?_, fun hkind => ?_,
    fun f opd hi hclamp htri => fieldRead_of_sequence h hi hclamp htri⟩
  · rcases exec_mode h with hm | ⟨hm, _, _⟩
    · exact hm.trans hready
    · exact hm
  · rcases exec_mode h with hm | ⟨_, _, opd, hi, _⟩
    · exact hm
    · exact absurd hi (hb opd)
  · obtain ⟨hf, hb, hframes, hpulse⟩ := quiet_of_reserved_or_setter s hquiet
    exact exec_quiet h hf hb hframes hpulse
  · rcases hkind with hr | hf | ⟨opd, rfl | rfl | rfl | rfl | rfl | rfl⟩
    · exact exec_img_of_imageOf h (imageOf_reserved hr)
    · exact exec_img_of_imageOf h (imageOf_frame hf)
    all_goals exact exec_img_of_imageOf h fun _ => rfl

/-- Settles O53: only `fail` gives the first three causes, and it moves these three fields alone. -/
theorem refusedCommandsAreExact : Obligations.RefusedCommandsAreExact := by
  intro i s t h hi hc
  rcases exec_cases h with ⟨_, rfl⟩ | ⟨_, rfl⟩ | ⟨_, _, _, _, rfl⟩ | ⟨_, _, _, _, _, hran⟩ | ⟨_, _, _, hbegan⟩
  · rfl
  · rfl
  · rfl
  · rcases lastCause_of_ran hran hi with h' | h' <;> simp [h'] at hc
  · rcases lastCause_of_began hbegan with h' | h' <;> simp [h'] at hc

end Sys2Proof.Machine
end

