-- ==== Sys2Proof/Proofs/Bench.lean ====
section
/-! The block with the reference responder on its bus (20_memory R74 to R76): a completed command's events are its frames to the
responder, and its answers are what the responder shifts out. -/

namespace Sys2Proof.Machine

/-! ### From the block to the responder -/

/-- The responder after frames, one after another. -/
def responderFrames (fs : List Frame) (r : Responder) : Responder := fs.foldl (fun r f => responderFrame f r) r

theorem responderAfter_sent (c : Cfg) (sent : List (Frame × Byte × Byte × Byte)) (evs : List Event) (r : Responder) :
    responderAfter c ((sent.map fun x => frameEvents c x.1 x.2.1 x.2.2.1 x.2.2.2).flatten ++ evs) r =
      responderAfter c evs (responderFrames (sent.map (·.1)) r) := by
  induction sent generalizing r with
  | nil => rfl
  | cons x xs ih =>
    rw [List.map_cons, List.flatten_cons, List.append_assoc, responderAfter_frameEvents, ih]
    rfl

/-- A completed command's events, as the responder takes them: the command's frames, then its pin writes. -/
theorem responder_of_completed {i : Instr} {s t : State} (hruns : Runs i s) (hi : i.isFrame = false)
    (h : exec i s = .next t) (hc : t.lastCause = .none) :
    ∃ evs, t.trace = s.trace ++ evs ∧
      ∀ r, responderAfter s.cfg evs r = responderAfter s.cfg (pulsesOf i s) (responderFrames (framesOf i s) r) := by
  obtain ⟨t', ht', hran⟩ := ran_of_runs hruns
  obtain rfl : t = t' := Host.Outcome.next.inj (h.symm.trans ht')
  rcases hran with ⟨s', res, _, hs, _, rfl⟩ | ⟨hframe, _⟩ | ⟨s', e, _, rfl⟩
  · obtain ⟨_, sent, hsent, htrace⟩ := sendFrames_trace hs
    refine ⟨_, by rw [complete_trace, htrace, List.append_assoc], fun r => ?_⟩
    rw [← hsent]
    exact responderAfter_sent s.cfg sent (pulsesOf i s) r
  · rw [hi] at hframe; cases hframe
  · cases hc

theorem responderFrame_writeDac (p : Payload) (r : Responder) :
    responderFrame (0x1#4 ++ p) r = { r with dacReg := p, sdoNext := 0#24 } := by
  have h := responderFrame_write (regAddr .dac) p r
  rwa [show (0#1 ++ regAddr .dac ++ p : Frame) = 0x1#4 ++ p from writeHead .dac p] at h

theorem responderFrame_writeCtrl (p : Payload) (r : Responder) :
    responderFrame (0x2#4 ++ p) r = { r with ctrlReg := p, sdoNext := 0#24 } := by
  have h := responderFrame_write (regAddr .ctrl) p r
  rwa [show (0#1 ++ regAddr .ctrl ++ p : Frame) = 0x2#4 ++ p from writeHead .ctrl p] at h

/-- A pulse of the load-strobe pin has one falling edge, whatever the level before it (20_memory R76). -/
theorem responderAfter_pulse {c : Cfg} {p : PinId} (hc : cfgAccepted c = true) (hp : c.ldacPin = some p) (r : Responder) :
    responderAfter c [.pinWrite p .high, .pinWrite p .low] r = { r with outReg := r.dacReg, ldacLvl := some .low } := by
  simp [responderAfter, benchEvent, ldacPin_ne_csPin hc hp, hp, responderPin]

/-- Both commit paths move the scaled value to the output (42_value R140, 20_memory R75, R76). -/
theorem setValue_reaches_latches {s t : State} {v : Word} (hc : cfgAccepted s.cfg = true) (hm : s.mode = .ready)
    (h : exec (.setValue v) s = .next t) (hcause : t.lastCause = .none) :
    ∃ evs, t.trace = s.trace ++ evs ∧ ∀ r,
      (responderAfter s.cfg evs r).dacReg = scaleValue s.cfg.offset v ∧
      (responderAfter s.cfg evs r).outReg = scaleValue s.cfg.offset v := by
  obtain ⟨evs, htrace, hresp⟩ := responder_of_completed ⟨rfl, rfl, by simp, hm, rfl⟩ rfl h hcause
  refine ⟨evs, htrace, fun r => ?_⟩
  rw [hresp]
  cases hl : s.cfg.ldacPin with
  | some p =>
    simp only [framesOf, pulsesOf, hl, responderFrames, List.foldl_cons, List.foldl_nil, responderFrame_writeDac,
      responderAfter_pulse hc hl, and_self]
  | none =>
    simp only [framesOf, pulsesOf, hl, responderFrames, List.foldl_cons, List.foldl_nil, responderFrame_writeDac,
      responderFrame_load, responderAfter, and_self]

/-- Settles O57: the events of the command, for any state of the responder. -/
theorem committedValueReachesTheOutput : Obligations.CommittedValueReachesTheOutput := by
  intro s t v r hc hm h hcause
  obtain ⟨evs, htrace, hlatches⟩ := setValue_reaches_latches hc hm h hcause
  exact ⟨evs, htrace, hlatches r⟩

/-! ### From the responder to the block -/

/-- A register read over the responder: what the second frame receives is what the first one made the responder hold
ready. -/
theorem readReg_of_responder (a : Reg) {s : State} {f g : Frame} {r : Responder} {rest : List BusReply}
    (h : s.answers = responderAnswers [f, g] r ++ rest) :
    ∃ tr, readReg a s = .ok (decodeReadback (responderFrame f r).sdoNext) { afterDraws 8 s with trace := tr } := by
  have hu := upcoming_of_answers h
  have hread := readReg_of_ok a (s := s) hu
  rw [frame_bytes] at hread
  exact ⟨_, hread⟩

theorem decodeReadback_append_parts (e : BitVec 4) (p : Payload) : decodeReadback (e ++ p) = (p, e) := by
  rw [decodeReadback, BitVec.extractLsb'_append_eq_right, BitVec.extractLsb'_append_eq_left]

/-- Settles O58: the value frame left the scaled value in the latch that the read frames shift out, and descaling gives
its low bits. -/
theorem setValueThenReadValueReturnsIt : Obligations.SetValueThenReadValueReturnsIt := by
  intro s t u v r evs rest hc hm h hcause htrace hanswers hread
  obtain ⟨evs', htrace', hlatches⟩ := setValue_reaches_latches hc hm h hcause
  obtain rfl : evs = evs' := List.append_cancel_left (htrace.symm.trans htrace')
  have hcfg : t.cfg = s.cfg := (exec_appends h).1
  have hready : t.mode = .ready := by
    rcases exec_mode h with hsame | ⟨hready, _⟩
    · exact hsame.trans hm
    · exact hready
  obtain ⟨tr, hreg⟩ := readReg_of_responder .dac hanswers
  rw [responderFrame_readDac, decodeReadback_append_parts, (hlatches r).1] at hreg
  rw [exec_readValue hready, readValueBody, hreg, hcfg] at hread
  cases hread
  rw [← descaleValue_scaleValue (cfgAccepted_iff.mp hc).1 v]
  simp [finish, afterDraws_eq]

/-- Settles O59: the control register is what the read frames shift out, and the write-back's frame sets it to the
image's payload. -/
theorem controlReadFollowsTheLastWriteBack : Obligations.ControlReadFollowsTheLastWriteBack := by
  refine ⟨fun s u r rest hm hanswers hread => ⟨exec_img_of_imageOf hread fun _ => rfl, ?_⟩, fun s t r hc hm h hcause => ?_⟩
  · obtain ⟨tr, hreg⟩ := readReg_of_responder .ctrl hanswers
    rw [responderFrame_readCtrl, decodeReadback_append_parts] at hreg
    rw [exec_readControlRegister hm, readControlBody, hreg] at hread
    cases hread
    simp [finish, afterDraws_eq]
  · obtain ⟨evs, htrace, hresp⟩ := responder_of_completed ⟨rfl, rfl, by simp, hm, rfl⟩ rfl h hcause
    refine ⟨evs, htrace, ?_⟩
    rw [hresp]
    exact responderFrame_writeCtrl _ r

end Sys2Proof.Machine
end

