-- ==== Sys2Proof/Proofs/Assembler.lean ====
section
/-! The assembler (30_encoding R100): a line is refused by its mnemonic or by its operands, and each operand class accepts the
operands of R91. -/

namespace Sys2Proof.Machine

/-- A line of a mnemonic of the table: its opcode and its operand side by side, where it has one. -/
theorem assemble_of_lookup {m : String} {opc : BitVec 4} {cls : OperandClass} (h : asmTable.lookup m = some (opc, cls))
    (ops : List AsmOperand) : assemble ⟨m, ops⟩ = (asmOperand cls ops).map (opc ++ ·) := by
  simp only [assemble, h]
  cases asmOperand cls ops <;> rfl

/-- What is accepted is a row's word. -/
theorem assemble_eq_some {line : AsmLine} {cw : HostWord} (h : assemble line = some cw) :
    ∃ opc cls opd, asmTable.lookup line.mnemonic = some (opc, cls) ∧ asmOperand cls line.operands = some opd ∧
      cw = opc ++ opd := by
  cases hl : asmTable.lookup line.mnemonic with
  | none => simp only [assemble, hl] at h; cases h
  | some row =>
    rw [assemble_of_lookup hl, Option.map_eq_some_iff] at h
    obtain ⟨opd, ho, rfl⟩ := h
    exact ⟨row.1, row.2, opd, rfl, ho, rfl⟩

/-! ### The operand classes -/

theorem asmOperand_none_of_ne_nil {ops : List AsmOperand} (h : ops ≠ []) : asmOperand .none ops = none := by
  cases ops with
  | nil => exact absurd rfl h
  | cons o os => rfl

/-- A BOOL operand is one of four tokens (30_encoding R100). -/
theorem asmOperand_bool_eq_none {ops : List AsmOperand}
    (h : ops ∉ [[.decimal 0], [.decimal 1], [.wordFalse], [.wordTrue]]) : asmOperand .bool ops = none := by
  match ops, h with
  | [], _ => rfl
  | _ :: _ :: _, _ => rfl
  | [.hex _], _ => rfl
  | [.decimal 0], h => simp at h
  | [.decimal 1], h => simp at h
  | [.decimal (_ + 2)], _ => rfl
  | [.wordFalse], h => simp at h
  | [.wordTrue], h => simp at h

theorem asmOperand_decimal {n : Nat} (h : n < 2 ^ 32) : asmOperand .value [.decimal n] = some (BitVec.ofNat 32 n) :=
  if_pos h

theorem asmOperand_hex {n : Nat} (h : n < 2 ^ 32) : asmOperand .value [.hex n] = some (BitVec.ofNat 32 n) :=
  if_pos h

/-- A VALUE operand is one literal below `2^32` (30_encoding R100). -/
theorem asmOperand_value_eq_none {ops : List AsmOperand}
    (h : ∀ n, n < 2 ^ 32 → ops ≠ [.decimal n] ∧ ops ≠ [.hex n]) : asmOperand .value ops = none := by
  match ops, h with
  | [], _ => rfl
  | _ :: _ :: _, _ => rfl
  | [.wordFalse], _ => rfl
  | [.wordTrue], _ => rfl
  | [.decimal n], h => exact if_neg fun hn => (h n hn).1 rfl
  | [.hex n], h => exact if_neg fun hn => (h n hn).2 rfl

/-- What a class accepts satisfies the decoder's check of that class (30_encoding R91). -/
theorem operandLegal_of_asmOperand {cls : OperandClass} {ops : List AsmOperand} {opd : Word}
    (h : asmOperand cls ops = some opd) : operandLegal cls opd = true := by
  cases cls with
  | value => rfl
  | none =>
    cases ops with
    | nil => cases h; rfl
    | cons o os => cases h
  | bool =>
    by_cases hmem : ops ∈ [[.decimal 0], [.decimal 1], [.wordFalse], [.wordTrue]]
    · simp only [List.mem_cons, List.not_mem_nil, or_false] at hmem
      rcases hmem with rfl | rfl | rfl | rfl <;> cases h <;> rfl
    · rw [asmOperand_bool_eq_none hmem] at h; cases h

/-- What satisfies the check of a class is some operand's field. -/
theorem asmOperand_of_operandLegal {cls : OperandClass} {opd : Word} (h : operandLegal cls opd = true) :
    ∃ ops, asmOperand cls ops = some opd := by
  cases cls with
  | none => exact ⟨[], by rw [operandLegal_none_iff, noneOperandOk, beq_iff_eq] at h; rw [h]; rfl⟩
  | bool =>
    rw [operandLegal_bool_iff, boolOperandOk, Bool.or_eq_true, beq_iff_eq, beq_iff_eq] at h
    rcases h with rfl | rfl
    · exact ⟨[.wordFalse], rfl⟩
    · exact ⟨[.wordTrue], rfl⟩
  | value => exact ⟨[.decimal opd.toNat], by rw [asmOperand_decimal opd.isLt, BitVec.ofNat_toNat, BitVec.setWidth_eq]⟩

/-! ### The rows -/

/-- The opcodes of each operand class (30_encoding R90). -/
def classOpcodes : OperandClass → List (BitVec 4)
  | .none => [0x2#4, 0x9#4, 0xA#4, 0xB#4, 0xC#4]
  | .bool => [0x0#4, 0x4#4, 0x5#4, 0x6#4, 0x7#4, 0x8#4]
  | .value => [0x1#4, 0x3#4]

theorem classOpcodes_of_lookup {m : String} {opc : BitVec 4} {cls : OperandClass}
    (h : asmTable.lookup m = some (opc, cls)) : opc ∈ classOpcodes cls := by
  have hrows : ∀ row ∈ asmTable, row.2.1 ∈ classOpcodes row.2.2 := by decide
  obtain ⟨before, after, htable, _⟩ := List.lookup_eq_some_iff.mp h
  exact hrows (m, opc, cls) (by rw [htable]; simp)

/-- Every opcode below 0xD has a row. -/
theorem lookup_of_opcode : ∀ opc : BitVec 4, opc.toNat < 0xD → ∃ row ∈ asmTable,
    asmTable.lookup row.1 = some (opc, row.2.2) := by
  decide

/-- The decoder checks a row's operand by the row's class (30_encoding R91). -/
theorem hostInstr_of_classOpcodes {opc : BitVec 4} {cls : OperandClass} (h : opc ∈ classOpcodes cls) (opd : Word) :
    (hostInstr opc opd).isHostCommand = true ∧ (hostInstr opc opd).wellFormed = operandLegal cls opd := by
  cases cls with
  | none =>
    simp only [classOpcodes, List.mem_cons, List.not_mem_nil, or_false] at h
    rcases h with rfl | rfl | rfl | rfl | rfl <;> exact ⟨rfl, rfl⟩
  | bool =>
    simp only [classOpcodes, List.mem_cons, List.not_mem_nil, or_false] at h
    rcases h with rfl | rfl | rfl | rfl | rfl | rfl <;> exact ⟨rfl, (operandLegal_bool_iff opd).symm⟩
  | value =>
    simp only [classOpcodes, List.mem_cons, List.not_mem_nil, or_false] at h
    rcases h with rfl | rfl <;> exact ⟨rfl, rfl⟩

theorem assemble_of_unknown {m : String} (h : ∀ row ∈ asmTable, row.1 ≠ m) (ops : List AsmOperand) :
    assemble ⟨m, ops⟩ = none := by
  have hl : asmTable.lookup m = none := List.lookup_eq_none_iff.mpr fun row hrow => by simpa using (h row hrow).symm
  simp only [assemble, hl]

/-- What the assembler accepts is a well-formed host command. -/
theorem wellFormed_of_assemble {line : AsmLine} {cw : HostWord} (h : assemble line = some cw) :
    (decodeHost cw).isHostCommand = true ∧ (decodeHost cw).wellFormed = true := by
  obtain ⟨opc, cls, opd, hl, ho, rfl⟩ := assemble_eq_some h
  obtain ⟨hcommand, hwf⟩ := hostInstr_of_classOpcodes (classOpcodes_of_lookup hl) opd
  rw [decodeHost, hostOpcode_append, hostOperand_append, hwf]
  exact ⟨hcommand, operandLegal_of_asmOperand ho⟩

/-- A host command is its opcode's and its operand's instruction. -/
theorem hostInstr_of_isHostCommand {i : Instr} (h : i.isHostCommand = true) : ∃ opc opd, i = hostInstr opc opd := by
  obtain ⟨w, hw⟩ : ∃ cw, encode i = .host cw := by
    cases i with
    | frameWrDac _ | frameWrCtrl _ | frameWrClr _ | frameWrSwctrlLdac | frameRdDac | frameRdCtrl | frameNop => cases h
    | _ => exact ⟨_, rfl⟩
  have hdec := decodeInvertsEncode i
  rw [hw] at hdec
  exact ⟨_, _, (Except.ok.inj hdec).symm⟩

/-- Every well-formed host command is some line's word. -/
theorem assemble_of_wellFormed {i : Instr} (hi : i.isHostCommand = true) (hw : i.wellFormed = true) :
    ∃ line cw, assemble line = some cw ∧ encode i = .host cw := by
  obtain ⟨opc, opd, rfl⟩ := hostInstr_of_isHostCommand hi
  obtain ⟨⟨m, _, cls⟩, _, hl⟩ := lookup_of_opcode opc ((isHostCommand_hostInstr opc opd).mp hi)
  rw [(hostInstr_of_classOpcodes (classOpcodes_of_lookup hl) opd).2] at hw
  obtain ⟨ops, hops⟩ := asmOperand_of_operandLegal hw
  exact ⟨⟨m, ops⟩, opc ++ opd, by rw [assemble_of_lookup hl, hops]; rfl, encode_hostInstr opc opd⟩

/-- Settles O60: each row of the table is looked up, and its class accepts the operands of R100. -/
theorem assemblerWritesTheLegalCommands : Obligations.AssemblerWritesTheLegalCommands := by
  unfold Obligations.AssemblerWritesTheLegalCommands
  intro noneRows boolRows valueRows
  have hnone : ∀ row ∈ noneRows, asmTable.lookup row.1 = some (row.2, .none) := by decide
  have hbool : ∀ row ∈ boolRows, asmTable.lookup row.1 = some (row.2, .bool) := by decide
  have hvalue : ∀ row ∈ valueRows, asmTable.lookup row.1 = some (row.2, .value) := by decide
  have hnames : ∀ row ∈ asmTable, row.1 ∈ (noneRows ++ boolRows ++ valueRows).map (·.1) := by decide
  refine ⟨fun m opc hrow => ?_, fun m opc hrow => ?_, fun m opc hrow => ?_, fun m ops hm => ?_,
    fun line cw h => wellFormed_of_assemble h, fun i hi hw => assemble_of_wellFormed hi hw⟩
  · have hline := assemble_of_lookup (hnone _ hrow)
    exact ⟨hline [], fun ops hops => by rw [hline, asmOperand_none_of_ne_nil hops]; rfl⟩
  · have hline := assemble_of_lookup (hbool _ hrow)
    exact ⟨hline _, hline _, hline _, hline _, fun ops hops => by rw [hline, asmOperand_bool_eq_none hops]; rfl⟩
  · have hline := assemble_of_lookup (hvalue _ hrow)
    refine ⟨fun n hn => ⟨?_, ?_⟩, fun ops hops => ?_⟩
    · rw [hline, asmOperand_decimal hn]; rfl
    · rw [hline, asmOperand_hex hn]; rfl
    · rw [hline, asmOperand_value_eq_none hops]; rfl
  · exact assemble_of_unknown (fun row hrow heq => hm (by rw [← heq]; exact hnames row hrow)) ops

end Sys2Proof.Machine
end
